-- ==== Sys2Proof/Word.lean ====
section
/-!
DEFINITION. The bit vectors of the core: what the spec gives a width in bits (20_memory.md R45,
30_encoding.md R60, 60_exceptions.md R160). Bit 0 is the least significant bit (00_scope.md R15).
-/

namespace Sys2Proof

/-- A segment byte: a logical pattern before polarity, or a pin byte after it (00_scope.md R19). -/
abbrev Byte := BitVec 8

/-- One command word `{V, K, W, OP}` (30_encoding.md R60). -/
abbrev CommandWord := BitVec 48

/-- A position, as the three address lines A2..A0 carry it (42_position_decoder.md R100). -/
abbrev Position := BitVec 3

/-- The level of one pin, 0 or 1 (10_state.md R24). -/
abbrev Level := BitVec 1

end Sys2Proof
end

