-- ==== Sys2Proof/Syntax.lean ====
section
/-!
DEFINITION. The commands of 30_encoding.md R61, one constructor for each row of
spec/opcode_table.json. Operands are the unsigned integers of R62.
-/

namespace Sys2Proof

/-- A command. The operands are numbers, as the rules use them; that they fit their fields is
`Instr.wellFormed`. DESIGN CHOICE, log 10. -/
inductive Instr where
  /-- ENCODE sym: read one ROM entry (41_digit_encoder.md R85). -/
  | encode (sym : Nat)
  /-- SELECT pos: drive the address lines (42_position_decoder.md R102). -/
  | select (pos : Nat)
  /-- ENABLE active: drive the enable pin (42_position_decoder.md R106). -/
  | enable (active : Bool)
  /-- ADVANCE value, window: one refresh tick (43_scan_controller.md R125). -/
  | advance (value : Nat) (window : Nat)
  deriving DecidableEq, Repr

/-- The pseudo-instruction DISABLE, which expands to ENABLE 0 (30_encoding.md R68,
42_position_decoder.md R108). -/
abbrev Instr.disable : Instr := .enable false

end Sys2Proof
end

