-- ==== Sys2Proof/WellFormed.lean ====
section
/-!
DEFINITION. When a command's operands fit their fields (30_encoding.md R60, R62). An operand that
fits its field and lies outside the range its rule accepts is still well formed: it decodes, and
its status comes from executing it (R62).
-/

namespace Sys2Proof

/-- The operands fit: `sym` and `pos` in 0..255, `value` in 0..2^32-1, `window` in 0..15
(30_encoding.md R62, R67). -/
def Instr.wellFormed : Instr → Bool
  | .encode sym => decide (sym < 2 ^ 8)
  | .select pos => decide (pos < 2 ^ 8)
  | .enable _ => true
  | .advance value window => decide (value < 2 ^ 32) && decide (window < 2 ^ 4)

end Sys2Proof
end

