-- ==== Sys2Proof/Decode.lean ====
section
/-!
DEFINITION. The decoder of 30_encoding.md R65, total over the 2^48 words, with a name for each way
a word is illegal (R63, R64); the encoder that R65 gives as its inverse; and the same over the six
bytes of a serialised word, for either value of the open parameter CMD_BYTE_ORDER (20_memory.md R43).
-/

namespace Sys2Proof

/-- Why a word, or a list of bytes, is no command. The core answers ILLEGAL_COMMAND to every illegal
word, whichever name it has here. DESIGN CHOICE that it has one, log 14. -/
inductive DecodeError where
  /-- `OP` is 0x0 or 0x5..0xF (30_encoding.md R64). -/
  | reservedOpcode (op : Nat)
  /-- The opcode is a command's and a field that must be 0 is not (30_encoding.md R63). -/
  | reservedField (op : Nat)
  /-- A serialised word does not have six bytes: the transport's error, never the core's. DESIGN CHOICE, log 15. -/
  | wrongLength (bytes : Nat)
  deriving DecidableEq, Repr

/-- `OP`, `w[3:0]` (30_encoding.md R60). -/
def opField (w : CommandWord) : BitVec 4 := w.extractLsb' 0 4

/-- `W`, `w[7:4]`. -/
def windowField (w : CommandWord) : BitVec 4 := w.extractLsb' 4 4

/-- `K`, `w[15:8]`. -/
def byteField (w : CommandWord) : Byte := w.extractLsb' 8 8

/-- `V`, `w[47:16]`. -/
def valueField (w : CommandWord) : BitVec 32 := w.extractLsb' 16 32

/-- The decoder of 30_encoding.md R65. -/
def decode (w : CommandWord) : Except DecodeError Instr :=
  let op := opField w
  let window := windowField w
  let k := byteField w
  let v := valueField w
  if op = 0x1#4 then
    if window = 0 ∧ v = 0 then .ok (.encode k.toNat) else .error (.reservedField op.toNat)
  else if op = 0x2#4 then
    if window = 0 ∧ v = 0 then .ok (.select k.toNat) else .error (.reservedField op.toNat)
  else if op = 0x3#4 then
    if window = 0 ∧ v = 0 ∧ k.extractLsb' 1 7 = 0 then .ok (.enable (k.getLsbD 0))
    else .error (.reservedField op.toNat)
  else if op = 0x4#4 then
    if k = 0 then .ok (.advance v.toNat window.toNat) else .error (.reservedField op.toNat)
  else .error (.reservedOpcode op.toNat)

/-- A command's opcode (30_encoding.md R61). -/
def opcodeOf : Instr → BitVec 4
  | .encode _ => 0x1#4
  | .select _ => 0x2#4
  | .enable _ => 0x3#4
  | .advance _ _ => 0x4#4

/-- The word `{V, K, W, OP}` with these fields (30_encoding.md R60). -/
def packWord (v : BitVec 32) (k : Byte) (window : BitVec 4) (op : BitVec 4) : CommandWord :=
  v ++ k ++ window ++ op

/-- The encoder: the fields of each command, from the encodings of 30_encoding.md R60 to R63. An
operand that does not fit its field is cut to it; `Instr.wellFormed` says that none is. -/
def encode (i : Instr) : CommandWord :=
  match i with
  | .encode sym => packWord 0 (BitVec.ofNat 8 sym) 0 (opcodeOf i)
  | .select pos => packWord 0 (BitVec.ofNat 8 pos) 0 (opcodeOf i)
  | .enable active => packWord 0 ((BitVec.ofBool active).setWidth 8) 0 (opcodeOf i)
  | .advance value window => packWord (BitVec.ofNat 32 value) 0 (BitVec.ofNat 4 window) (opcodeOf i)

/-! ### A serialised word -/

/-- CMD_BYTE_ORDER, an open parameter that no rule of the core uses (20_memory.md R43). It is an
argument of the functions below and of nothing else (log 15). -/
inductive ByteOrder where
  /-- The byte with bits 7..0 comes first. -/
  | lowFirst
  /-- The byte with bits 47..40 comes first. -/
  | highFirst
  deriving DecidableEq, Repr

/-- The bytes of a word, lowest first. -/
def bytesLowFirst (w : CommandWord) : List Byte :=
  [w.extractLsb' 0 8, w.extractLsb' 8 8, w.extractLsb' 16 8, w.extractLsb' 24 8, w.extractLsb' 32 8,
    w.extractLsb' 40 8]

/-- The six bytes of a word as a transport of the given byte order sends them. -/
def bytesOfWord (order : ByteOrder) (w : CommandWord) : List Byte :=
  match order with
  | .lowFirst => bytesLowFirst w
  | .highFirst => (bytesLowFirst w).reverse

/-- The word whose six bytes arrive in the given order; `none` for any other number of bytes. -/
def wordOfBytes (order : ByteOrder) (bs : List Byte) : Option CommandWord :=
  match bs with
  | [a, b, c, d, e, f] =>
    match order with
    | .lowFirst => some (f ++ e ++ d ++ c ++ b ++ a)
    | .highFirst => some (a ++ b ++ c ++ d ++ e ++ f)
  | _ => none

/-- The decoder over bytes: total, refusing every length but six by name. -/
def decodeBytes (order : ByteOrder) (bs : List Byte) : Except DecodeError Instr :=
  match wordOfBytes order bs with
  | some w => decode w
  | none => .error (.wrongLength bs.length)

/-! ### The opcode table's numbering -/

/-- The command word whose bits the opcode table numbers as `w`: every command has 48 bits, and the
bits above `nbits` are 0 (30_encoding.md R66). -/
def tableWord (nbits w : Nat) : CommandWord := BitVec.ofNat 48 (w % 2 ^ nbits)

/-- What the decoder reads from a word numbered as spec/opcode_table.json numbers it. The command is
presented in parallel, so there is no byte to order (20_memory.md R43). -/
def decodeTableWord (nbits w : Nat) : Option Instr :=
  match decode (tableWord nbits w) with
  | .ok i => some i
  | .error _ => none

end Sys2Proof
end

