-- ==== Sys2Proof/Config.lean ====
section
/-!
DEFINITION. The configuration record of 00_scope.md R8. It is fixed for the life of an instance:
no command changes it (10_state.md R29). The values this hardware fixes are checked by
`Machine.configDefect`; a configuration that fails the check is refused (60_exceptions.md R170).
-/

namespace Sys2Proof

/-- Polarity of the segment bus or of the enable line (00_scope.md R12, R13). -/
inductive Polarity where
  | activeHigh
  | activeLow
  deriving DecidableEq, Repr

/-- Whether an optional part is there (00_scope.md R13, R14). -/
inductive Presence where
  | present
  | absent
  deriving DecidableEq, Repr

/-- VALUE_WIDTH, the width of the DisplayValue: 16 or 32 bits (00_scope.md R10). -/
inductive ValueWidth where
  | w16
  | w32
  deriving DecidableEq, Repr

/-- SYMBOL_SET (00_scope.md R11). -/
inductive SymbolSet where
  | digitsOnly
  | digitsHexBlankDot
  deriving DecidableEq, Repr

/-- The segment ROM: SYMBOL_SET together with SEG_TABLE, so that the table has exactly the entries
its symbol set gives it (41_digit_encoder.md R80). Entries are logical patterns. DEDUCED, log 8. -/
inductive SegmentRom where
  | digitsOnly (table : Vector Byte 10)
  | digitsHexBlankDot (table : Vector Byte 18)
  deriving DecidableEq, Repr

/-- ROM_SIZE (41_digit_encoder.md R80). -/
def SegmentRom.size : SegmentRom → Nat
  | .digitsOnly _ => 10
  | .digitsHexBlankDot _ => 18

/-- The SYMBOL_SET a ROM belongs to. -/
def SegmentRom.symbolSet : SegmentRom → SymbolSet
  | .digitsOnly _ => .digitsOnly
  | .digitsHexBlankDot _ => .digitsHexBlankDot

/-- Every digit 0..9 is in every ROM (43_scan_controller.md R125, step 3). -/
theorem SegmentRom.ten_le_size (rom : SegmentRom) : 10 ≤ rom.size := by
  cases rom <;> simp [SegmentRom.size]

/-- VALUE_WIDTH as a number of bits. -/
def ValueWidth.bits : ValueWidth → Nat
  | .w16 => 16
  | .w32 => 32

/-- The configuration record of 00_scope.md R8, field by field. -/
structure Config where
  /-- MAX_POS: 8 (R9). -/
  maxPos : Nat
  /-- ADDR_BITS: 3 (R9). -/
  addrBits : Nat
  /-- SEG_WIDTH: 8 (R8). -/
  segWidth : Nat
  /-- VALUE_WIDTH (R10). -/
  valueWidth : ValueWidth
  /-- SYMBOL_SET and SEG_TABLE (R11). -/
  rom : SegmentRom
  /-- POLARITY of the segment bus (R12). -/
  polarity : Polarity
  /-- ENABLE_LINE (R13). -/
  enableLine : Presence
  /-- EN_POLARITY; it matters only where the enable line is present (R13). -/
  enPolarity : Polarity
  /-- DECODER: Present (R14). -/
  decoder : Presence
  deriving DecidableEq, Repr

/-- Why a configuration is not one of this hardware (60_exceptions.md R170, 00_scope.md R8). -/
inductive ConfigDefect where
  /-- MAX_POS is not 8 (00_scope.md R9). -/
  | maxPosNotEight
  /-- ADDR_BITS is not 3 (00_scope.md R8, R9). DEDUCED, log 7. -/
  | addrBitsNotThree
  /-- SEG_WIDTH is not 8 (00_scope.md R8). DEDUCED, log 7. -/
  | segWidthNotEight
  /-- DECODER is Absent (00_scope.md R14). -/
  | decoderAbsent
  /-- SEG_TABLE breaks 41_digit_encoder.md R81: the blank entry 16 is not 0x00. -/
  | blankEntryNotZero
  deriving DecidableEq, Repr

end Sys2Proof
end

