-- ==== Sys2Proof/Machine/Defaults.lean ====
section
/-!
DEFINITION. The default contents of the segment ROM (41_digit_encoder.md R82) and the configuration
that spec/95_test_vectors.md uses unless a vector says otherwise. The bytes of symbols 0..15 and 17 are
PRESUMED: the spec marks them as general knowledge (93_implementation_defined.md G1), log 9. A
configuration of this hardware may hold any other bytes there.
-/

namespace Sys2Proof.Machine

/-- The default table for `DigitsHexBlankDot` (41_digit_encoder.md R82): digits, hex letters, blank,
decimal point. -/
def defaultTable : Vector Byte 18 :=
  #v[0x3F, 0x06, 0x5B, 0x4F, 0x66, 0x6D, 0x7D, 0x07, 0x7F, 0x6F,
    0x77, 0x7C, 0x39, 0x5E, 0x79, 0x71,
    0x00, 0x80]

/-- The default table for `DigitsOnly`: entries 0..9 of the other one (41_digit_encoder.md R82). -/
def defaultDigits : Vector Byte 10 :=
  #v[0x3F, 0x06, 0x5B, 0x4F, 0x66, 0x6D, 0x7D, 0x07, 0x7F, 0x6F]

/-- The configuration of spec/95_test_vectors.md. It is the one `State.reset` is built with: DESIGN
CHOICE, log 2. The vectors give EN_POLARITY no value where the enable line is absent. -/
def defaultConfig : Config where
  maxPos := 8
  addrBits := 3
  segWidth := 8
  valueWidth := .w32
  rom := .digitsHexBlankDot defaultTable
  polarity := .activeHigh
  enableLine := .absent
  enPolarity := .activeHigh
  decoder := .present

end Sys2Proof.Machine
end

