-- ==== Sys2Proof/Machine/State.lean ====
section
/-!
DEFINITION. The state of one core instance (10_state.md R20), what the host is about to present and
what an observer has seen, as plain data; the reasons a step can stop; the state after reset.
-/

namespace Sys2Proof.Machine

/-- The status of a command's response (60_exceptions.md R160). Its 3-bit code is
`Machine.statusCode`. Codes 6 and 7 are never returned, so they have no constructor. -/
inductive Status where
  | ok
  | invalidSelection
  | invalidSymbol
  | invalidWindow
  | invalidValue
  | illegalCommand
  deriving DecidableEq, Repr

/-- What the core answers to one command (10_state.md R30). -/
structure Response where
  status : Status
  /-- The logical pattern, for ENCODE with status OK only. -/
  pattern : Option Byte
  deriving DecidableEq, Repr

/-- One port write (10_state.md R27). -/
inductive Event where
  /-- Address lines driven so that A0 = p[0], A1 = p[1], A2 = p[2]. -/
  | addrWrite (p : Position)
  /-- Segment bus driven to pin byte `b`. -/
  | segWrite (b : Byte)
  /-- Enable pin driven to level `l`. -/
  | enWrite (l : Level)
  deriving DecidableEq, Repr

/-- What the host can present: a command word, or the reset input (70_reset_and_hazards.md R180). -/
inductive Request where
  | command (w : CommandWord)
  | reset
  deriving DecidableEq, Repr

/-- What an observer has of one request: a command's response and events, or that a reset happened,
which has neither (10_state.md R27, R30; 70_reset_and_hazards.md R180). -/
inductive Record where
  | command (response : Response) (events : List Event)
  | reset
  deriving DecidableEq, Repr

/-- The state of one instance: `pos`, `addr`, `seg`, `en` of 10_state.md R20. `none` in a latch is the
spec's own "unknown" (R34), DEDUCED, log 3. The other three fields are the model's: see each. There is no
data memory (20_memory.md R40), DEDUCED, log 17. -/
structure State where
  /-- The configuration, constant for the life of the instance (10_state.md R29). DESIGN CHOICE that it
  stands here, log 1. -/
  cfg : Config
  /-- ScanState (R21). -/
  pos : Position
  /-- The address-line latch (R22). -/
  addr : Option Position
  /-- The segment-bus latch, a pin byte (R23). -/
  seg : Option Byte
  /-- The enable-pin latch, a pin level; `none` where there is no enable line (R24). -/
  en : Option Level
  /-- What the host presents next, in its order (00_scope.md R7). DESIGN CHOICE, log 4. -/
  pending : List Request
  /-- What an observer has seen, oldest first (10_state.md R27). No command reads it. DESIGN CHOICE,
  log 5. -/
  log : List Record
  deriving DecidableEq, Repr

/-- Reasons the machine stops with a fault: none. "No command of the spec faults, and none is stuck"
(60_exceptions.md R170); the core has no exception mechanism (R161). DEDUCED, log 18. -/
inductive Fault where
  deriving DecidableEq, Repr

/-- Reasons a step has no meaning. -/
inductive Refusal where
  /-- The instance's configuration is not one of this hardware (60_exceptions.md R170). Raised by every
  command and every other request under such a configuration (`Machine.guarded`). Safe: the spec
  gives no behaviour there. -/
  | badConfiguration (defect : ConfigDefect)
  /-- An instruction that has no meaning yet. Raised by no arm of `exec`. Safe. -/
  | notModelled (mnemonic : String)
  deriving DecidableEq, Repr

/-- The state right after reset with configuration `cfg` (10_state.md R33): `pos = 0` and every latch
unknown. Nothing is pending and nothing has been seen: DESIGN CHOICE, log 4 and log 5. -/
def State.powerOn (cfg : Config) : State where
  cfg := cfg
  pos := 0
  addr := none
  seg := none
  en := none
  pending := []
  log := []

/-- The machine right after reset, with the configuration of the spec's test vectors (DESIGN CHOICE,
log 2). -/
def State.reset : State := State.powerOn defaultConfig

end Sys2Proof.Machine
end

