-- ==== Sys2Proof/Machine/Ops.lean ====
section
/-!
DEFINITION. The operations the meanings share: driving a port (`emit` of 00_scope.md R17), ending a
command with a response (`return`), refusing a configuration that is not this hardware's
(60_exceptions.md R170), an illegal word, the reset input, and taking the host's next request.

There is no exception entry and no return from one: the core has no exception mechanism
(60_exceptions.md R161, R165). An error is `State.fail`.
-/

namespace Sys2Proof.Machine

/-- What a port write does to the latches: each event is the latest value of its latch (10_state.md
R27; 00_scope.md R17). -/
def State.latch (s : State) (e : Event) : State :=
  match e with
  | .addrWrite p => { s with addr := some p }
  | .segWrite b => { s with seg := some b }
  | .enWrite l => { s with en := some l }

/-- A list of port writes, in order. -/
def State.drive (s : State) (events : List Event) : State :=
  events.foldl State.latch s

/-- `return status` with the events the command emitted: the ports have been driven, in order, and the
observer has the response and the events (00_scope.md R6, R17). -/
def State.finish (s : State) (status : Status) (pattern : Option Byte) (events : List Event) : State :=
  { s.drive events with log := s.log ++ [.command ⟨status, pattern⟩ events] }

/-- An early return with an error: no event, no state written, no pattern (00_scope.md R18,
60_exceptions.md R162). -/
def State.fail (s : State) (status : Status) : State := s.finish status none []

/-- What keeps a configuration from being one of this hardware, if anything does: the fixed values of
00_scope.md R8, R9 and R14 and the constraint on SEG_TABLE of 41_digit_encoder.md R81. -/
def configDefect (cfg : Config) : Option ConfigDefect :=
  if cfg.maxPos ≠ 8 then some .maxPosNotEight
  else if cfg.addrBits ≠ 3 then some .addrBitsNotThree
  else if cfg.segWidth ≠ 8 then some .segWidthNotEight
  else if cfg.decoder = .absent then some .decoderAbsent
  else
    match cfg.rom with
    | .digitsOnly _ => none
    | .digitsHexBlankDot table => if table[16] = 0 then none else some .blankEntryNotZero

/-- The model has no step under a configuration that is not this hardware's (60_exceptions.md R170).
Every command, and every other request, goes through this check. -/
def guarded (s : State) (outcome : Host.Outcome State Fault Refusal) : Host.Outcome State Fault Refusal :=
  match configDefect s.cfg with
  | some defect => .refused (.badConfiguration defect)
  | none => outcome

/-- A word that decodes to no command: ILLEGAL_COMMAND, no event, no change (30_encoding.md R63, R64). -/
def execIllegal (s : State) : Host.Outcome State Fault Refusal :=
  guarded s (.next (s.fail .illegalCommand))

/-- What the reset input does to the state (70_reset_and_hazards.md R180): `pos` is 0 and every latch
unknown; no event, no response, the configuration unchanged. The observer sees that it happened. -/
def State.assertReset (s : State) : State :=
  { s with pos := 0, addr := none, seg := none, en := none, log := s.log ++ [.reset] }

/-- The reset input, serialised with the commands (70_reset_and_hazards.md R181). -/
def performReset (s : State) : Host.Outcome State Fault Refusal :=
  guarded s (.next s.assertReset)

/-- The host presents nothing: the state stays where it is (60_exceptions.md R166, "stop ticking").
DESIGN CHOICE that this is a step, log 6. -/
def idle (s : State) : Host.Outcome State Fault Refusal :=
  guarded s (.next s)

/-- The host presents one request more, before the ones that wait. -/
def State.present (s : State) (r : Request) : State := { s with pending := r :: s.pending }

end Sys2Proof.Machine
end

