-- ==== Sys2Proof/Machine/DigitEncoder.lean ====
section
/-!
DEFINITION. The DigitEncoder (41_digit_encoder.md): the segment ROM, the bit-to-segment map, and ENCODE.
-/

namespace Sys2Proof.Machine

/-- `RomRead(i)`, defined only for `i < ROM_SIZE` (20_memory.md R41). -/
def romRead (rom : SegmentRom) (i : Nat) (h : i < rom.size) : Byte :=
  match rom with
  | .digitsOnly table => table[i]'h
  | .digitsHexBlankDot table => table[i]'h

/-- The pattern of a decimal digit, which every ROM has (43_scan_controller.md R125, step 3). -/
def digitPattern (rom : SegmentRom) (d : Nat) (h : d < 10) : Byte :=
  romRead rom d (Nat.lt_of_lt_of_le h rom.ten_le_size)

/-- The segments of a digit (41_digit_encoder.md R84). PRESUMED, log 19. -/
inductive Segment where
  | a | b | c | d | e | f | g | dp
  deriving DecidableEq, Repr

/-- The bit of a pattern that stands for a segment (41_digit_encoder.md R84). PRESUMED, log 19. No
command uses it. -/
def segmentBit : Segment → Nat
  | .a => 0
  | .b => 1
  | .c => 2
  | .d => 3
  | .e => 4
  | .f => 5
  | .g => 6
  | .dp => 7

/-- Whether a logical pattern lights a segment: 1 means lit (41_digit_encoder.md R84). -/
def lit (pattern : Byte) (segment : Segment) : Bool := pattern.getLsbD (segmentBit segment)

/-- ENCODE sym (41_digit_encoder.md R85): the logical pattern of one ROM entry. -/
def execEncode (sym : Nat) (s : State) : Host.Outcome State Fault Refusal :=
  guarded s <|
    if h : sym < s.cfg.rom.size then .next (s.finish .ok (some (romRead s.cfg.rom sym h)) [])
    else .next (s.fail .invalidSymbol)

end Sys2Proof.Machine
end

