-- ==== Sys2Proof/Machine/Operands.lean ====
section
/-!
DEFINITION. What the commands do with their operands: the digit extraction ADVANCE consumes
(43_scan_controller.md R120, R121) and the ranges the rules accept (30_encoding.md R62). Arithmetic is
exact (00_scope.md R16).
-/

namespace Sys2Proof.Machine

/-- `pow10(k)`, exactly 10^k (43_scan_controller.md R120). -/
def pow10 (k : Nat) : Nat := 10 ^ k

/-- `digitAt(v, k)`: decimal digit `k` of `v`, counted from the least significant (43_scan_controller.md
R121). -/
def digitAt (v k : Nat) : Nat := v / pow10 k % 10

/-- A digit is in 0..9 (43_scan_controller.md R121). -/
theorem digitAt_lt_ten (v k : Nat) : digitAt v k < 10 := Nat.mod_lt _ (by decide)

/-- The positions SELECT accepts, 0..MAX_POS-1 (42_position_decoder.md R102). -/
def selectionInRange (cfg : Config) (pos : Nat) : Bool := !decide (pos > cfg.maxPos - 1)

/-- The windows ADVANCE accepts, 1..MAX_POS (43_scan_controller.md R124). -/
def windowInRange (cfg : Config) (window : Nat) : Bool :=
  !(decide (window < 1) || decide (window > cfg.maxPos))

/-- The values ADVANCE accepts, 0..2^VALUE_WIDTH-1 (43_scan_controller.md R124). -/
def valueInRange (cfg : Config) (value : Nat) : Bool := !decide (value ≥ 2 ^ cfg.valueWidth.bits)

end Sys2Proof.Machine
end

