-- ==== Sys2Proof/Machine/Polarity.lean ====
section
/-!
DEFINITION. The PolarityAdapter (44_polarity.md): the pure functions of R150 and R152, and the blank
pattern they are applied to.
-/

namespace Sys2Proof.Machine

/-- `BLANK`, the logical pattern with all segments off, in both symbol sets (41_digit_encoder.md R83). -/
def blankPattern : Byte := 0x00

/-- `apply(p)`, the segment transform (44_polarity.md R150). -/
def applyPolarity (polarity : Polarity) (p : Byte) : Byte :=
  match polarity with
  | .activeHigh => p
  | .activeLow => ~~~p

/-- `enLevel(active)`, the pin level driven for a logical request (44_polarity.md R152). -/
def enLevel (polarity : Polarity) (active : Bool) : Level :=
  match polarity with
  | .activeHigh => BitVec.ofBool active
  | .activeLow => 1 - BitVec.ofBool active

/-- `enActive(level)`, whether a latched pin level means "live" (44_polarity.md R152). -/
def enActive (polarity : Polarity) (level : Level) : Bool :=
  match polarity with
  | .activeHigh => level == 1
  | .activeLow => level == 0

end Sys2Proof.Machine
end

