-- ==== Sys2Proof/Machine/PositionDecoder.lean ====
section
/-!
DEFINITION. The PositionDecoder (42_position_decoder.md): SELECT, ENABLE, and the one-of-eight output,
which is computed from the latches and not stored (10_state.md R25).
-/

namespace Sys2Proof.Machine

/-- SELECT p (42_position_decoder.md R102, R103). -/
def execSelect (pos : Nat) (s : State) : Host.Outcome State Fault Refusal :=
  guarded s <|
    if selectionInRange s.cfg pos then .next (s.finish .ok none [.addrWrite (BitVec.ofNat 3 pos)])
    else .next (s.fail .invalidSelection)

/-- ENABLE active (42_position_decoder.md R106, R107). -/
def execEnable (active : Bool) (s : State) : Host.Outcome State Fault Refusal :=
  guarded s <|
    match s.cfg.enableLine with
    | .absent => .next (s.fail .illegalCommand)
    | .present => .next (s.finish .ok none [.enWrite (enLevel s.cfg.enPolarity active)])

/-- The level of address line A`i` for a driven position (42_position_decoder.md R100). POLARITY does
not invert it (R101). -/
def addressLine (p : Position) (i : Nat) : Bool := p.getLsbD i

/-- `live(s)`: whether the decoder's output is live; `none` is unknown (42_position_decoder.md R109). -/
def State.live (s : State) : Option Bool :=
  match s.cfg.enableLine with
  | .absent => some true
  | .present => s.en.map (enActive s.cfg.enPolarity)

/-- `Y(s)`: the decoder's logical output, bit `i` for position `i`; `none` is unknown
(42_position_decoder.md R109). -/
def State.decoderOutput (s : State) : Option (BitVec 8) :=
  match s.addr, s.live with
  | none, _ => none
  | _, none => none
  | some _, some false => some 0
  | some p, some true => some (1#8 <<< p.toNat)

end Sys2Proof.Machine
end

