-- ==== Sys2Proof/Machine/ScanController.lean ====
section
/-!
DEFINITION. The ScanController (43_scan_controller.md): the wrap policy and ADVANCE, one refresh tick.
-/

namespace Sys2Proof.Machine

/-- `next(p, W)`, the wrap policy, in exact arithmetic (43_scan_controller.md R126). -/
def nextPosition (maxPos p window : Nat) : Nat :=
  if p + 1 ≤ maxPos - 1 then p + 1 else maxPos - window

/-- The decimal place that position `p` shows: place `MAX_POS - 1 - p` (43_scan_controller.md R123). -/
def placeOf (maxPos p : Nat) : Nat := maxPos - 1 - p

/-- The pin byte that shows decimal digit `digitAt value place` (43_scan_controller.md R125, steps 2
and 3). -/
def digitPinByte (cfg : Config) (value place : Nat) : Byte :=
  applyPolarity cfg.polarity (digitPattern cfg.rom (digitAt value place) (digitAt_lt_ten value place))

/-- The pin byte of the blanking write (43_scan_controller.md R125, step 4). -/
def blankPinByte (cfg : Config) : Byte := applyPolarity cfg.polarity blankPattern

/-- The three port writes of one tick at position `p` (43_scan_controller.md R125, steps 3 and 4). -/
def tickEvents (cfg : Config) (p : Position) (value : Nat) : List Event :=
  [.addrWrite p, .segWrite (digitPinByte cfg value (placeOf cfg.maxPos p.toNat)), .segWrite (blankPinByte cfg)]

/-- ADVANCE V, W (43_scan_controller.md R124, R125). The new position is in 0..7 (R126), so 3 bits hold
it (10_state.md R21). -/
def execAdvance (value window : Nat) (s : State) : Host.Outcome State Fault Refusal :=
  guarded s <|
    if !windowInRange s.cfg window then .next (s.fail .invalidWindow)
    else if !valueInRange s.cfg value then .next (s.fail .invalidValue)
    else
      .next ({ s with pos := BitVec.ofNat 3 (nextPosition s.cfg.maxPos s.pos.toNat window) }.finish .ok none
        (tickEvents s.cfg s.pos value))

end Sys2Proof.Machine
end

