-- ==== Sys2Proof/Machine/Dispatch.lean ====
section
/-! DEFINITION. One arm per command: each calls the command's meaning. -/

namespace Sys2Proof.Machine

def exec (i : Instr) (s : State) : Host.Outcome State Fault Refusal :=
  match i with
  | .encode sym => Sys2Proof.Machine.execEncode sym s
  | .select pos => Sys2Proof.Machine.execSelect pos s
  | .enable active => Sys2Proof.Machine.execEnable active s
  | .advance value window => Sys2Proof.Machine.execAdvance value window s

end Sys2Proof.Machine
end

