-- ==== Sys2Proof/Machine/Fetch.lean ====
section
/-!
DEFINITION. How the core comes to its next request and what it does with it. The core fetches nothing
from memory (20_memory.md R51): the host presents one request at a time (00_scope.md R6).
-/

namespace Sys2Proof.Machine

/-- The request the host presents next, and the state in which the core performs it. -/
def nextRequest (s : State) : Option (Request × State) :=
  match s.pending with
  | [] => none
  | r :: rest => some (r, { s with pending := rest })

/-- A command word: executed as the command it decodes to, or as ILLEGAL (30_encoding.md R63 to R65). -/
def performCommand (w : CommandWord) (s : State) : Host.Outcome State Fault Refusal :=
  match decode w with
  | .ok i => exec i s
  | .error _ => execIllegal s

/-- One request of the host. -/
def perform (r : Request) (s : State) : Host.Outcome State Fault Refusal :=
  match r with
  | .command w => performCommand w s
  | .reset => performReset s

/-- The host presents a word that arrives as bytes; nothing is presented where they are not six (log 15). -/
def State.presentBytes (s : State) (order : ByteOrder) (bs : List Byte) : Option State :=
  (wordOfBytes order bs).map fun w => s.present (.command w)

end Sys2Proof.Machine
end

