-- ==== Sys2Proof/Machine/Step.lean ====
section
/-!
DEFINITION. One step: the core takes the host's next request and completes it before the next one
(20_memory.md R48).
-/

namespace Sys2Proof.Machine

/-- The host's next request is performed; with nothing presented nothing happens. -/
def step (s : State) : Host.Outcome State Fault Refusal :=
  match nextRequest s with
  | none => idle s
  | some (r, s') => perform r s'

/-- The host presents the word the opcode table numbers as `w`, before anything that waits. A program
comes from outside the machine in this way only (log 4). -/
def State.withFetchWord (s : State) (nbits w : Nat) : State :=
  s.present (.command (tableWord nbits w))

end Sys2Proof.Machine
end

