-- ==== Sys2Proof/Machine/Assembler.lean ====
section
/-!
DEFINITION. The textual form of a command, one a line (30_encoding.md R67), and the pseudo-instruction
DISABLE (R68). Details R67 leaves open are DESIGN CHOICE, log 16. No step of the machine uses this file.
-/

namespace Sys2Proof.Machine

/-- Why a line is no command. -/
inductive AsmError where
  | unknownMnemonic
  /-- The number of operands, or the comma between them, is not the mnemonic's. -/
  | operandShape
  /-- An operand is neither a literal nor a name the mnemonic takes. -/
  | notALiteral
  /-- An operand does not fit its field (30_encoding.md R67). -/
  | doesNotFit
  deriving DecidableEq, Repr

inductive Token where
  | word (cs : List Char)
  | comma
  deriving DecidableEq, Repr

/-- A comment starts at `;` and runs to the end of the line (30_encoding.md R67). -/
def stripComment (line : List Char) : List Char := line.takeWhile (· ≠ ';')

/-- The word read so far (its characters in reverse), as a token. -/
def endWord (acc : List Char) : List Token := if acc = [] then [] else [.word acc.reverse]

/-- The tokens of a line, the word being read first. -/
def tokenize (acc : List Char) : List Char → List Token
  | [] => endWord acc
  | c :: cs =>
    if c = ' ' ∨ c = '\t' ∨ c = '\r' then endWord acc ++ tokenize [] cs
    else if c = ',' then endWord acc ++ .comma :: tokenize [] cs
    else tokenize (c :: acc) cs

/-- A digit of a decimal or hexadecimal literal. -/
def digitValue (base : Nat) (c : Char) : Option Nat :=
  let v :=
    if '0' ≤ c ∧ c ≤ '9' then some (c.toNat - '0'.toNat)
    else if 'a' ≤ c ∧ c ≤ 'f' then some (c.toNat - 'a'.toNat + 10)
    else if 'A' ≤ c ∧ c ≤ 'F' then some (c.toNat - 'A'.toNat + 10)
    else none
  v.filter (· < base)

/-- The digits that follow a number read so far. -/
def readDigits (base acc : Nat) : List Char → Option Nat
  | [] => some acc
  | c :: cs =>
    match digitValue base c with
    | some d => readDigits base (acc * base + d) cs
    | none => none

/-- An unsigned literal, decimal or `0x`-prefixed hexadecimal (30_encoding.md R67). -/
def literal (cs : List Char) : Option Nat :=
  match cs with
  | [] => none
  | ['0', 'x'] => none
  | '0' :: 'x' :: ds => readDigits 16 0 ds
  | ds => readDigits 10 0 ds

/-- The operand of ENCODE: a literal, or one of the two names (30_encoding.md R67). -/
def symbolOperand (cs : List Char) : Option Nat :=
  if cs = "BLANK".toList then some 16 else if cs = "DP".toList then some 17 else literal cs

/-- A command whose operands must fit their fields (30_encoding.md R67). -/
def fitting (i : Instr) : Except AsmError Instr :=
  if i.wellFormed then .ok i else .error .doesNotFit

/-- A command of one operand. -/
def oneOperand (read : List Char → Option Nat) (make : Nat → Except AsmError Instr) :
    List Token → Except AsmError Instr
  | [.word cs] =>
    match read cs with
    | some n => make n
    | none => .error .notALiteral
  | _ => .error .operandShape

/-- ADVANCE's two operands, value then window. -/
def advanceOperands : List Token → Except AsmError Instr
  | [.word vs, .comma, .word ws] =>
    match literal vs, literal ws with
    | some v, some w => fitting (.advance v w)
    | _, _ => .error .notALiteral
  | _ => .error .operandShape

/-- `active` is 0 or 1 (30_encoding.md R67). -/
def enableOf (n : Nat) : Except AsmError Instr :=
  if n ≤ 1 then .ok (.enable (n == 1)) else .error .doesNotFit

/-- One command from its mnemonic, in any case, and its operands. -/
def assembleTokens (mnemonic : List Char) (operands : List Token) : Except AsmError Instr :=
  let m := mnemonic.map Char.toUpper
  if m = "ENCODE".toList then oneOperand symbolOperand (fun n => fitting (.encode n)) operands
  else if m = "SELECT".toList then oneOperand literal (fun n => fitting (.select n)) operands
  else if m = "ENABLE".toList then oneOperand literal enableOf operands
  else if m = "ADVANCE".toList then advanceOperands operands
  else if m = "DISABLE".toList then
    if operands = [] then .ok Instr.disable else .error .operandShape
  else .error .unknownMnemonic

/-- One line of text: a command, or nothing where the line is blank or only a comment. -/
def assembleLine (line : List Char) : Except AsmError (Option Instr) :=
  match tokenize [] (stripComment line) with
  | [] => .ok none
  | .comma :: _ => .error .unknownMnemonic
  | .word m :: operands =>
    match assembleTokens m operands with
    | .ok i => .ok (some i)
    | .error e => .error e

/-- The command words of a text's lines, in order; the first bad line's error. -/
def assembleLines : List (List Char) → Except AsmError (List CommandWord)
  | [] => .ok []
  | line :: rest =>
    match assembleLine line, assembleLines rest with
    | .error e, _ => .error e
    | .ok _, .error e => .error e
    | .ok none, .ok ws => .ok ws
    | .ok (some i), .ok ws => .ok (encode i :: ws)

/-- The lines of a text. -/
def textLines : List Char → List (List Char)
  | [] => [[]]
  | c :: cs =>
    match textLines cs with
    | [] => [[c]]
    | l :: ls => if c = '\n' then [] :: l :: ls else (c :: l) :: ls

/-- The command words of a text. -/
def assemble (text : String) : Except AsmError (List CommandWord) :=
  assembleLines (textLines text.toList)

end Sys2Proof.Machine
end

