-- ==== Sys2Proof/Machine/Flags.lean ====
section
/-!
DEFINITION. The core has no flags and no condition codes (10_state.md R26). What a command reports is
the status of its response, and its 3-bit code is here.
-/

namespace Sys2Proof.Machine

/-- The code of a status (60_exceptions.md R160). -/
def statusCode : Status → BitVec 3
  | .ok => 0
  | .invalidSelection => 1
  | .invalidSymbol => 2
  | .invalidWindow => 3
  | .invalidValue => 4
  | .illegalCommand => 5

end Sys2Proof.Machine
end

