-- ==== Sys2Proof/Safety.lean ====
section
/-!
DEFINITION. The terms the statements use: a run of commands, what the observer's record says (the last
level driven on each port, the positions granted, the digits shown), the display window, and what every
reachable state satisfies.
-/

namespace Sys2Proof.Machine

/-- The instance's configuration is one of this hardware (60_exceptions.md R170). -/
abbrev State.Legal (s : State) : Prop := configDefect s.cfg = none

/-- The observer has one response more, with its events; nothing else differs. -/
def State.saw (s : State) (status : Status) (pattern : Option Byte) (events : List Event) : State :=
  { s with log := s.log ++ [.command ⟨status, pattern⟩ events] }

/-! ### A command word as a number: `w = V * 2^16 + K * 2^8 + W * 2^4 + OP` (30_encoding.md R60) -/

/-- `OP` of a word. -/
def wordOP (w : CommandWord) : Nat := w.toNat % 2 ^ 4
/-- `W` of a word. -/
def wordW (w : CommandWord) : Nat := w.toNat / 2 ^ 4 % 2 ^ 4
/-- `K` of a word. -/
def wordK (w : CommandWord) : Nat := w.toNat / 2 ^ 8 % 2 ^ 8
/-- `V` of a word. -/
def wordV (w : CommandWord) : Nat := w.toNat / 2 ^ 16

/-! ### Runs -/

/-- Commands executed one after another (20_memory.md R48). -/
def runCommands : List Instr → State → Host.Outcome State Fault Refusal
  | [], s => .next s
  | i :: rest, s =>
    match exec i s with
    | .next t => runCommands rest t
    | .fault f => .fault f
    | .refused r => .refused r

/-- One ADVANCE for each value, the window held (43_scan_controller.md R127). -/
def ticks (window : Nat) (values : List Nat) : List Instr := values.map (.advance · window)

/-- The values the configured width holds (43_scan_controller.md R124). -/
abbrev ValuesFit (cfg : Config) (values : List Nat) : Prop := ∀ v ∈ values, v < 2 ^ cfg.valueWidth.bits

/-- The wrap floor `MAX_POS - W` (00_scope.md R19). -/
abbrev wrapFloor (window : Nat) : Nat := 8 - window

/-- `pos` is in the window: `F ≤ pos ≤ 7` (43_scan_controller.md R127). -/
abbrev State.InWindow (s : State) (window : Nat) : Prop := wrapFloor window ≤ s.pos.toNat

/-! ### What the observer's record says -/

/-- The levels of the three ports, `none` where nothing has been driven since the last reset. -/
structure Ports where
  addr : Option Position
  seg : Option Byte
  en : Option Level
  deriving DecidableEq, Repr

/-- The ports after a reset (10_state.md R33). -/
def Ports.unknown : Ports := ⟨none, none, none⟩

/-- The ports after one event: the event is the latest value of its latch (10_state.md R27). -/
def Ports.see (ports : Ports) (e : Event) : Ports :=
  match e with
  | .addrWrite p => { ports with addr := some p }
  | .segWrite b => { ports with seg := some b }
  | .enWrite l => { ports with en := some l }

/-- The port an event writes is known to have the level the event drives. -/
def Ports.Holds (ports : Ports) : Event → Prop
  | .addrWrite p => ports.addr = some p
  | .segWrite b => ports.seg = some b
  | .enWrite l => ports.en = some l

/-- The ports after one request. -/
def Ports.after (ports : Ports) (r : Record) : Ports :=
  match r with
  | .command _ events => events.foldl Ports.see ports
  | .reset => Ports.unknown

/-- The ports as the whole record says they are. -/
def portsOf (log : List Record) : Ports := log.foldl Ports.after Ports.unknown

/-- The ports in the middle of a command: the record before it, and the events it has emitted so far. A
reset in the record makes every port unknown again (10_state.md R34). -/
def portsDuring (before : List Record) (events : List Event) : Ports :=
  events.foldl Ports.see (portsOf before)

/-- The latches of a state. -/
def State.ports (s : State) : Ports := ⟨s.addr, s.seg, s.en⟩

/-- The events of a request. -/
def Record.events : Record → List Event
  | .command _ events => events
  | .reset => []

/-- The concatenation of the event lists over a run (10_state.md R27). -/
def observedEvents (log : List Record) : List Event := log.flatMap Record.events

/-- The position a tick grants the segment bus to: the one it drives before its data write, and none
for any other request (43_scan_controller.md R133). -/
def grantOf : Record → Option Position
  | .command _ [.addrWrite p, .segWrite _, .segWrite _] => some p
  | _ => none

/-- What a tick shows, and where: the position and the data byte (43_scan_controller.md R134). -/
def shownBy : Record → Option (Position × Byte)
  | .command _ [.addrWrite p, .segWrite data, .segWrite _] => some (p, data)
  | _ => none

/-- What was shown over a record, in order. -/
def shown (log : List Record) : List (Position × Byte) := log.filterMap shownBy

/-- The byte of the last SegWrite event in a list, if there is one. It is an EVENT and says nothing of the
level of the bus: a reset between makes that level unknown (10_state.md R34), and `portsOf` says so. -/
def lastSegWrite (events : List Event) : Option Byte :=
  events.foldl (fun b e => match e with | .segWrite b' => some b' | _ => b) none

/-- The pin byte of decimal digit `value / 10^place % 10` (43_scan_controller.md R121, R125). -/
def digitByte (cfg : Config) (value place : Nat) : Byte :=
  applyPolarity cfg.polarity
    (digitPattern cfg.rom (value / 10 ^ place % 10) (Nat.mod_lt _ (by decide)))

/-- The positions granted over a record, in order. -/
def grants (log : List Record) : List Nat := (log.filterMap grantOf).map BitVec.toNat

/-! ### What every reachable state satisfies -/

/-- The record of one request under configuration `cfg` has one of the shapes the rules give: an error
emits nothing and has no pattern (60_exceptions.md R162); OK is the ROM entry of an ENCODE, the one
event of a SELECT or of an ENABLE, or the three events of an ADVANCE in their order
(43_scan_controller.md R131). -/
def RecordShape (cfg : Config) : Record → Prop
  | .reset => True
  | .command response events =>
    if response.status = .ok then
      (∃ i, ∃ h : i < cfg.rom.size, response.pattern = some (romRead cfg.rom i h) ∧ events = []) ∨
        (response.pattern = none ∧
          ((∃ p, events = [.addrWrite p]) ∨
            (cfg.enableLine = .present ∧ ∃ active, events = [.enWrite (enLevel cfg.enPolarity active)]) ∨
            ∃ p d, ∃ h : d < 10, events = [.addrWrite p,
              .segWrite (applyPolarity cfg.polarity (digitPattern cfg.rom d h)),
              .segWrite (applyPolarity cfg.polarity blankPattern)]))
    else response.pattern = none ∧ events = []

/-- The invariant of the machine. -/
structure Inv (s : State) : Prop where
  /-- The configuration is one of this hardware. -/
  legal : s.Legal
  /-- Each latch holds the latest value driven since the last reset (10_state.md R27, R34). -/
  latches_recorded : s.ports = portsOf s.log
  /-- Between commands the segment bus is unknown or carries the blank (43_scan_controller.md R134). -/
  bus_blank : s.seg = none ∨ s.seg = some (applyPolarity s.cfg.polarity blankPattern)
  /-- Until the first tick the scan is where reset left it (10_state.md R21). -/
  scan_at_start : s.seg = none → s.pos = 0
  /-- With no enable line there is no enable level (10_state.md R24). -/
  no_line_no_level : s.cfg.enableLine = .absent → s.en = none
  /-- Every request's record has one of the shapes the rules give. -/
  shapes : ∀ r ∈ s.log, RecordShape s.cfg r

end Sys2Proof.Machine
end

