-- ==== Sys2Proof/Certificates/Slice0/Obligations.lean ====
section
/-!
DEFINITION. The statements for the provers. Each docstring names the rule of spec/ it formalises. Where
the spec marks a rule, or a part of it, as its own decision (D<n>) or as derived, the docstring says so.
-/

open Sys2Proof Sys2Proof.Machine

/-! ### Words -/

/-- A few words of 95_test_vectors.md section 2.1 and 30_encoding.md R69: the five legal ones are the
commands the spec says, and the other two are illegal as the spec says. The word format is the spec's own
decision D10. The NAMES the two illegal words get, reserved field and reserved opcode, are the model's
choice, log 14: the spec has the one term ILLEGAL. -/
def Obligations.SpecWordsDecode : Prop :=
  decode 0x000000001001 = .ok (.encode 16) ∧
  decode 0x000000000802 = .ok (.select 8) ∧
  decode 0x000000000103 = .ok (.enable true) ∧
  decode 0x000004D20044 = .ok (.advance 1234 4) ∧
  decode 0x05E30A780084 = .ok (.advance 98765432 8) ∧
  decode 0x0000000001F4 = .error (.reservedField 4) ∧
  decode 0xFFFFFFFFFFFF = .error (.reservedOpcode 15)

/-- The decoder is the function of 30_encoding.md R65 (which the spec derives from R60, R61 and R63, its
decision D10), said of the word as a number: each legal word is its command, and no other word is one. -/
def Obligations.DecodeFollowsFields : Prop :=
  ∀ w : CommandWord,
    (wordOP w = 1 → wordW w = 0 → wordV w = 0 → decode w = .ok (.encode (wordK w))) ∧
    (wordOP w = 2 → wordW w = 0 → wordV w = 0 → decode w = .ok (.select (wordK w))) ∧
    (wordOP w = 3 → wordW w = 0 → wordV w = 0 → wordK w < 2 → decode w = .ok (.enable (wordK w == 1))) ∧
    (wordOP w = 4 → wordK w = 0 → decode w = .ok (.advance (wordV w) (wordW w))) ∧
    (¬ ((wordOP w = 1 ∨ wordOP w = 2) ∧ wordW w = 0 ∧ wordV w = 0) →
      ¬ (wordOP w = 3 ∧ wordW w = 0 ∧ wordV w = 0 ∧ wordK w < 2) →
      ¬ (wordOP w = 4 ∧ wordK w = 0) → ∃ e, decode w = .error e)

/-- The encoder is the one 30_encoding.md R65 writes down (decision D10). -/
def Obligations.EncoderIsTheFormula : Prop :=
  (∀ k, k < 2 ^ 8 → (encode (.encode k)).toNat = 0x000000000001 + k * 0x100) ∧
  (∀ k, k < 2 ^ 8 → (encode (.select k)).toNat = 0x000000000002 + k * 0x100) ∧
  (∀ a : Bool, (encode (.enable a)).toNat = 0x000000000003 + a.toNat * 0x100) ∧
  (∀ v n, v < 2 ^ 32 → n < 2 ^ 4 → (encode (.advance v n)).toNat = v * 0x10000 + n * 0x10 + 0x4)

/-- Decoding an encoded command gives it back, for every operand its fields hold (30_encoding.md R65,
decision D10). -/
def Obligations.DecodeOfEncode : Prop :=
  ∀ i : Instr, i.wellFormed = true → decode (encode i) = .ok i

/-- A word has no second reading and no dropped bit: encoding what it decodes to gives it back, and what
it decodes to is well formed (30_encoding.md R65, decision D10). -/
def Obligations.EncodeOfDecode : Prop :=
  ∀ (w : CommandWord) (i : Instr), decode w = .ok i → i.wellFormed = true ∧ encode i = w

/-- The opcode table's match and mask select exactly the words of each command (opcode_table.json). -/
def Obligations.OpcodeTableSelectsWords : Prop :=
  ∀ w : CommandWord,
    (w &&& 0xFFFFFFFF00FF#48 = 0x000000000001#48 ↔ ∃ sym, decode w = .ok (.encode sym)) ∧
    (w &&& 0xFFFFFFFF00FF#48 = 0x000000000002#48 ↔ ∃ pos, decode w = .ok (.select pos)) ∧
    (w &&& 0xFFFFFFFFFEFF#48 = 0x000000000003#48 ↔ ∃ active, decode w = .ok (.enable active)) ∧
    (w &&& 0x00000000FF0F#48 = 0x000000000004#48 ↔ ∃ value window, decode w = .ok (.advance value window))

/-- A word sent as six bytes in either byte order decodes as the word, and any other number of bytes is
refused. The byte order is the open parameter CMD_BYTE_ORDER (20_memory.md R43); that other lengths are
refused is the model's choice, log 15. -/
def Obligations.SerialisedWordDecodes : Prop :=
  ∀ order : ByteOrder,
    (∀ w : CommandWord, wordOfBytes order (bytesOfWord order w) = some w ∧
      decodeBytes order (bytesOfWord order w) = decode w) ∧
    (∀ bs : List Byte, bs.length ≠ 6 → decodeBytes order bs = .error (.wrongLength bs.length))

/-- Whatever line of text assembles to a command, its operands fit their fields (30_encoding.md R67,
decision D28). -/
def Obligations.AssembledCommandFits : Prop :=
  ∀ (line : List Char) (i : Instr), assembleLine line = .ok (some i) → i.wellFormed = true

/-- The worked encodings of 30_encoding.md R69 (decisions D10 and D28). -/
def Obligations.WorkedEncodingsAssemble : Prop :=
  assemble "ENCODE 16" = .ok [0x000000001001] ∧
  assemble "SELECT 8" = .ok [0x000000000802] ∧
  assemble "ENABLE 1" = .ok [0x000000000103] ∧
  assemble "ADVANCE 1234, 4" = .ok [0x000004D20044] ∧
  assemble "ADVANCE 98765432, 8" = .ok [0x05E30A780084]

/-- DISABLE is ENABLE 0 (30_encoding.md R68, 42_position_decoder.md R108, decision D28). -/
def Obligations.DisableIsEnableZero : Prop :=
  assemble "DISABLE" = .ok [0x000000000003] ∧ encode Instr.disable = 0x000000000003 ∧
    ∀ s : State, exec Instr.disable s = exec (.enable false) s

/-! ### Steps -/

/-- A step runs the command the host presents: the word in front decodes to it, and the step is `exec` of
it with that request taken (00_scope.md R6, R7). -/
def Obligations.StepRunsDecodedCommand : Prop :=
  ∀ (s : State) (w : CommandWord) (rest : List Request) (i : Instr),
    s.pending = .command w :: rest → decode w = .ok i → step s = exec i { s with pending := rest }

/-- A word with a reserved opcode, or with a reserved field that is not zero, returns ILLEGAL_COMMAND,
emits nothing and changes nothing (30_encoding.md R63 and R64, decisions D10 and D23). -/
def Obligations.IllegalWordChangesNothing : Prop :=
  ∀ (s : State) (w : CommandWord) (rest : List Request), s.Legal → s.pending = .command w :: rest →
    (wordOP w = 0 ∨ 5 ≤ wordOP w ∨
      ((wordOP w = 1 ∨ wordOP w = 2) ∧ (wordW w ≠ 0 ∨ wordV w ≠ 0)) ∨
      (wordOP w = 3 ∧ (wordW w ≠ 0 ∨ wordV w ≠ 0 ∨ 2 ≤ wordK w)) ∨
      (wordOP w = 4 ∧ wordK w ≠ 0)) →
    step s = .next (State.saw { s with pending := rest } .illegalCommand none [])

/-- The reset input sets `pos` to 0 and every latch to unknown, emits nothing, and leaves the
configuration (70_reset_and_hazards.md R180, decisions D12 and D22). That the observer's record marks it
is the model's choice, log 5. -/
def Obligations.ResetInputClears : Prop :=
  ∀ (s : State) (rest : List Request), s.Legal → s.pending = .reset :: rest →
    step s = .next { s with
      pos := 0, addr := none, seg := none, en := none, pending := rest, log := s.log ++ [.reset] }

/-- With nothing presented the state stays where it is (60_exceptions.md R166, "stop ticking"). That this
is a step is the model's choice, log 6. -/
def Obligations.NothingPresentedNothingHappens : Prop :=
  ∀ s : State, s.Legal → s.pending = [] → step s = .next s

/-- The state after reset, for whatever configuration (10_state.md R33, decision D12), and the
configuration the model resets with (its own choice, log 2). -/
def Obligations.ResetValues : Prop :=
  (∀ cfg : Config, (State.powerOn cfg).pos = 0 ∧ (State.powerOn cfg).addr = none ∧
    (State.powerOn cfg).seg = none ∧ (State.powerOn cfg).en = none ∧ (State.powerOn cfg).cfg = cfg) ∧
  State.reset = State.powerOn defaultConfig

/-- The host's queued words run as the commands they encode, one after another (20_memory.md R48). That
the words wait in a queue of the state is the model's choice, log 4. -/
def Obligations.QueuedWordsRunInOrder : Prop :=
  ∀ (s : State) (is : List Instr), (∀ i ∈ is, i.wellFormed = true) →
    s.pending = is.map (fun i => .command (encode i)) →
    Host.Core.run Sys2Proof.core is.length s = runCommands is { s with pending := [] }

/-! ### The commands -/

/-- ENCODE returns the logical pattern of the ROM entry, or INVALID_SYMBOL past the end, and changes
nothing (41_digit_encoder.md R85, decisions D7 and D25). The entry is SEG_TABLE[sym] (20_memory.md R41):
entry `sym` of the 18 of the rich set, or of the 10 of the digit-only set (41_digit_encoder.md R80). -/
def Obligations.EncodeReturnsRomEntry : Prop :=
  ∀ (s : State) (sym : Nat), s.Legal →
    (∀ h : sym < s.cfg.rom.size,
      exec (.encode sym) s = .next (s.saw .ok (some (romRead s.cfg.rom sym h)) [])) ∧
    (∀ table, s.cfg.rom = .digitsHexBlankDot table → ∀ h : sym < 18,
      exec (.encode sym) s = .next (s.saw .ok (some table[sym]) [])) ∧
    (∀ table, s.cfg.rom = .digitsOnly table → ∀ h : sym < 10,
      exec (.encode sym) s = .next (s.saw .ok (some table[sym]) [])) ∧
    (s.cfg.rom.size ≤ sym → exec (.encode sym) s = .next (s.saw .invalidSymbol none []))

/-- The blank symbol is 0x00 in the rich set, whatever the polarity; symbols 10..17 are no symbols of the
digit-only set; 18..255 are none of either (41_digit_encoder.md R85, corner cases; R81; decisions D7 and
D25). -/
def Obligations.EncodeCornerSymbols : Prop :=
  ∀ s : State, s.Legal →
    (s.cfg.rom.symbolSet = .digitsHexBlankDot →
      exec (.encode 16) s = .next (s.saw .ok (some 0x00) [])) ∧
    (∀ sym, 10 ≤ sym → s.cfg.rom.symbolSet = .digitsOnly →
      exec (.encode sym) s = .next (s.saw .invalidSymbol none [])) ∧
    (∀ sym, 18 ≤ sym → exec (.encode sym) s = .next (s.saw .invalidSymbol none []))

/-- What ENCODE answers depends on the ROM and on nothing else: not on polarity, latches or scan
(41_digit_encoder.md R85, 44_polarity.md R154, decision D25). -/
def Obligations.EncodeReadsOnlyTheRom : Prop :=
  ∀ (s s' : State) (sym : Nat), s.Legal → s'.Legal → s.cfg.rom = s'.cfg.rom →
    ∃ r : Response, exec (.encode sym) s = .next (s.saw r.status r.pattern []) ∧
      exec (.encode sym) s' = .next (s'.saw r.status r.pattern [])

/-- SELECT of a position 0..7 drives the address lines to it, and nothing else changes
(42_position_decoder.md R102). -/
def Obligations.SelectDrivesAddress : Prop :=
  ∀ (s : State) (p : Position), s.Legal →
    exec (.select p.toNat) s = .next { s.saw .ok none [.addrWrite p] with addr := some p }

/-- SELECT out of range (42_position_decoder.md R103). -/
def Obligations.SelectOutOfRangeChangesNothing : Prop :=
  ∀ (s : State) (p : Nat), s.Legal → 8 ≤ p →
    exec (.select p) s = .next (s.saw .invalidSelection none [])

/-- SELECT as a word: its encoding, its two statuses, and ILLEGAL_COMMAND where a reserved field is not
zero (42_position_decoder.md R102). -/
def Obligations.SelectWordStep : Prop :=
  (∀ p, p < 2 ^ 8 → (encode (.select p)).toNat = 0x000000000002 + p * 0x100) ∧
  ∀ (s : State) (w : CommandWord) (rest : List Request), s.Legal →
    s.pending = .command w :: rest → wordOP w = 2 →
    (wordW w = 0 → wordV w = 0 → wordK w ≤ 7 →
      step s = .next { s with
        addr := some (BitVec.ofNat 3 (wordK w)), pending := rest,
        log := s.log ++ [.command ⟨.ok, none⟩ [.addrWrite (BitVec.ofNat 3 (wordK w))]] }) ∧
    (wordW w = 0 → wordV w = 0 → 8 ≤ wordK w →
      step s = .next (State.saw { s with pending := rest } .invalidSelection none [])) ∧
    (wordW w ≠ 0 ∨ wordV w ≠ 0 →
      step s = .next (State.saw { s with pending := rest } .illegalCommand none []))

/-- The three address lines carry the position in binary: bit 0 on A0, bit 1 on A1, bit 2 on A2
(42_position_decoder.md R100). -/
def Obligations.AddressLinesReproducePosition : Prop :=
  ∀ (s : State) (p : Nat), s.Legal → p ≤ 7 →
    ∃ t a, exec (.select p) s = .next t ∧ t.addr = some a ∧
      observedEvents t.log = observedEvents s.log ++ [.addrWrite a] ∧
      ∀ i, i < 3 → addressLine a i = p.testBit i

/-- SELECT twice of one position: two events, one latch value (42_position_decoder.md R104, which the spec
derives from R102). -/
def Obligations.SelectIsIdempotent : Prop :=
  ∀ (s : State) (p : Position), s.Legal →
    ∃ t u, exec (.select p.toNat) s = .next t ∧ exec (.select p.toNat) t = .next u ∧
      u.ports = t.ports ∧ u.addr = some p ∧
      observedEvents u.log = observedEvents s.log ++ [.addrWrite p, .addrWrite p]

/-- ENABLE drives the enable pin where there is one and is ILLEGAL_COMMAND where there is none
(42_position_decoder.md R106 and R107, 44_polarity.md R152, decisions D13 and D14). -/
def Obligations.EnableDrivesPin : Prop :=
  ∀ (s : State) (active : Bool), s.Legal →
    (s.cfg.enableLine = .present → ∀ l : Level,
      l = (if s.cfg.enPolarity = .activeHigh then (if active then 1 else 0) else if active then 0 else 1) →
      exec (.enable active) s = .next { s.saw .ok none [.enWrite l] with en := some l }) ∧
    (s.cfg.enableLine = .absent → exec (.enable active) s = .next (s.saw .illegalCommand none []))

/-- ENABLE as a word: its encoding, its statuses, and ILLEGAL_COMMAND where a reserved field is not zero
or there is no line (42_position_decoder.md R106). -/
def Obligations.EnableWordStep : Prop :=
  encode (.enable true) = 0x000000000103 ∧ encode (.enable false) = 0x000000000003 ∧
  ∀ (s : State) (w : CommandWord) (rest : List Request), s.Legal →
    s.pending = .command w :: rest → wordOP w = 3 →
    (wordW w = 0 → wordV w = 0 → wordK w < 2 → s.cfg.enableLine = .present →
      step s = .next { s with
        en := some (enLevel s.cfg.enPolarity (wordK w == 1)), pending := rest,
        log := s.log ++ [.command ⟨.ok, none⟩ [.enWrite (enLevel s.cfg.enPolarity (wordK w == 1))]] }) ∧
    (wordW w ≠ 0 ∨ wordV w ≠ 0 ∨ 2 ≤ wordK w ∨ s.cfg.enableLine = .absent →
      step s = .next (State.saw { s with pending := rest } .illegalCommand none []))

/-- ENABLE gates the decoder's output and leaves the selection alone: with a position selected, ENABLE 1
makes exactly it live, ENABLE 0 nothing (42_position_decoder.md R106, R109, decision D13). -/
def Obligations.EnableGatesOutput : Prop :=
  ∀ (s : State) (p : Position) (active : Bool), s.Legal → s.cfg.enableLine = .present → s.addr = some p →
    ∃ t, exec (.enable active) s = .next t ∧ t.addr = some p ∧
      t.decoderOutput = some (if active then 1#8 <<< p.toNat else 0)

/-- ADVANCE with a window 1..8 and a value of the configured width: three port writes in order, the blank
left on the bus, and the next position; nothing else changes (43_scan_controller.md R125, R126, decisions
D17, D27 and D32). The digit's pin byte is the transform of SEG_TABLE[d], `d` the decimal digit
(20_memory.md R41). -/
def Obligations.AdvanceMakesOneTick : Prop :=
  ∀ (s : State) (v w : Nat), s.Legal → 1 ≤ w → w ≤ 8 → v < 2 ^ s.cfg.valueWidth.bits →
    exec (.advance v w) s = .next
      { s.saw .ok none
          [.addrWrite s.pos, .segWrite (digitByte s.cfg v (7 - s.pos.toNat)),
            .segWrite (applyPolarity s.cfg.polarity 0x00)] with
        addr := some s.pos
        seg := some (applyPolarity s.cfg.polarity 0x00)
        pos := BitVec.ofNat 3 (if s.pos.toNat + 1 ≤ 7 then s.pos.toNat + 1 else 8 - w) } ∧
    (∀ table, s.cfg.rom = .digitsHexBlankDot table → ∀ k d, ∀ h : d < 18, v / 10 ^ k % 10 = d →
      digitByte s.cfg v k = applyPolarity s.cfg.polarity table[d]) ∧
    (∀ table, s.cfg.rom = .digitsOnly table → ∀ k d, ∀ h : d < 10, v / 10 ^ k % 10 = d →
      digitByte s.cfg v k = applyPolarity s.cfg.polarity table[d])

/-- ADVANCE rejects a window outside 1..8 whatever the value, then a value past the configured width, and
changes nothing (43_scan_controller.md R124, 60_exceptions.md R163, decisions D3, D9 and D30). -/
def Obligations.AdvanceRejectsOperands : Prop :=
  ∀ (s : State) (v w : Nat), s.Legal →
    (w = 0 ∨ 9 ≤ w → exec (.advance v w) s = .next (s.saw .invalidWindow none [])) ∧
    (1 ≤ w → w ≤ 8 → 2 ^ s.cfg.valueWidth.bits ≤ v →
      exec (.advance v w) s = .next (s.saw .invalidValue none []))

/-! ### What commands leave alone -/

/-- The frame of every command: what each leaves unchanged when it gives a next state. ENCODE changes no
latch and no scan, SELECT only `addr`, ENABLE only `en`, ADVANCE never `en`; none changes the
configuration or what the host presents; each adds one record (42_position_decoder.md R105, R110;
10_state.md R20, R29). -/
def Obligations.CommandFrames : Prop :=
  ∀ (s t : State) (i : Instr), exec i s = .next t →
    t.cfg = s.cfg ∧ t.pending = s.pending ∧ (∃ r es, t.log = s.log ++ [.command r es]) ∧
    match i with
    | .encode _ => t.pos = s.pos ∧ t.addr = s.addr ∧ t.seg = s.seg ∧ t.en = s.en
    | .select _ => t.pos = s.pos ∧ t.seg = s.seg ∧ t.en = s.en
    | .enable _ => t.pos = s.pos ∧ t.addr = s.addr ∧ t.seg = s.seg
    | .advance _ _ => t.en = s.en

/-- Position and enable are independent (42_position_decoder.md R110). -/
def Obligations.PositionAndEnableIndependent : Prop :=
  ∀ s t : State,
    (∀ p, exec (.select p) s = .next t → t.en = s.en) ∧
    (∀ v w, exec (.advance v w) s = .next t → t.en = s.en) ∧
    (∀ a, exec (.enable a) s = .next t → t.addr = s.addr)

/-- ScanState belongs to ADVANCE alone: the other commands neither write `pos` nor depend on it, nor does
an illegal word; it is in 0..7; it is 0 after reset (10_state.md R21). -/
def Obligations.OnlyAdvanceTouchesScan : Prop :=
  (∀ (s t : State) (q : Position) (w : CommandWord), (∀ v n, decode w ≠ .ok (.advance v n)) →
    performCommand w s = .next t →
    t.pos = s.pos ∧ performCommand w { s with pos := q } = .next { t with pos := q }) ∧
  (∀ s : State, s.pos.toNat ≤ 7) ∧ (∀ cfg, (State.powerOn cfg).pos = 0)

/-- No step changes the segment ROM, nor any other part of the configuration (20_memory.md R42). -/
def Obligations.RomNeverChanges : Prop :=
  ∀ s t : State, step s = .next t → t.cfg.rom = s.cfg.rom ∧ t.cfg = s.cfg

/-- Every command word is answered by exactly one response; a status other than OK has no pattern and no
event and leaves the state as it was (60_exceptions.md R160 and R162, decisions D8 and D9). -/
def Obligations.ErrorsChangeNothing : Prop :=
  ∀ (s t : State) (w : CommandWord) (rest : List Request),
    s.pending = .command w :: rest → step s = .next t →
    ∃ st pat es, t.log = s.log ++ [.command ⟨st, pat⟩ es] ∧
      (st ≠ .ok → pat = none ∧ es = [] ∧ t = { s with pending := rest, log := t.log })

/-- No command reads an earlier response, an earlier event or what the host presents later (10_state.md
R30, decisions D8 and D27). -/
def Obligations.RecordAndQueueNotRead : Prop :=
  ∀ (s t : State) (i : Instr) (log : List Record) (pending : List Request), exec i s = .next t →
    ∃ r es, t.log = s.log ++ [.command r es] ∧
      exec i { s with log := log, pending := pending } =
        .next { t with log := log ++ [.command r es], pending := pending }

/-- The codes of the statuses (60_exceptions.md R160, decision D8); 6 and 7 are never returned, and no two
statuses share a code. -/
def Obligations.StatusCodes : Prop :=
  statusCode .ok = 0 ∧ statusCode .invalidSelection = 1 ∧ statusCode .invalidSymbol = 2 ∧
  statusCode .invalidWindow = 3 ∧ statusCode .invalidValue = 4 ∧ statusCode .illegalCommand = 5 ∧
  (∀ st, statusCode st ≠ 6 ∧ statusCode st ≠ 7) ∧
  (∀ st st', statusCode st = statusCode st' → st = st')

/-- The configurations of this hardware (00_scope.md R8, R9 and R14; 41_digit_encoder.md R81;
60_exceptions.md R170; decisions D1, D2 and D18; ADDR_BITS and SEG_WIDTH among them by the model's
reading of R8, log 7). -/
def Obligations.LegalConfigurations : Prop :=
  ∀ s : State, s.Legal ↔
    s.cfg.maxPos = 8 ∧ s.cfg.addrBits = 3 ∧ s.cfg.segWidth = 8 ∧ s.cfg.decoder = .present ∧
    ∀ table, s.cfg.rom = .digitsHexBlankDot table → table[16] = 0x00

/-- Every request ends in a next state; only a configuration that is not this hardware's has no step, and
then none at all (60_exceptions.md R170, decision D1). That a step with nothing presented is one of them is
the model's choice, log 6; that ADDR_BITS other than 3 and SEG_WIDTH other than 8 are among the refused
configurations, and that a reset request and an empty queue are refused with the commands, is the model's
reading, log 7. -/
def Obligations.EveryRequestCompletes : Prop :=
  ∀ s : State,
    (s.Legal → (∃ t, step s = .next t) ∧ ∀ i, ∃ t, exec i s = .next t) ∧
    (¬ s.Legal → ∃ d, configDefect s.cfg = some d ∧ step s = .refused (.badConfiguration d) ∧
      ∀ i, exec i s = .refused (.badConfiguration d))

/-! ### Digits and polarity -/

/-- A place past the value's digits is 0 (43_scan_controller.md R122), and a digit is in 0..9 (R121). -/
def Obligations.ZeroPadding : Prop :=
  ∀ v k, digitAt v k < 10 ∧ (v < 10 ^ k → digitAt v k = 0)

/-- The eight places ADVANCE shows are the decimal digits of the value modulo 10^8, and nothing of it is
lost (43_scan_controller.md R121, R130, decision D26). -/
def Obligations.DigitsRebuildValue : Prop :=
  ∀ v, ((List.range 8).map fun k => digitAt v k * 10 ^ k).sum = v % 10 ^ 8

/-- Position `p` shows decimal place `7 - p`: position 0 the most significant of eight, position 7 the
least (43_scan_controller.md R123). -/
def Obligations.PositionShowsPlace : Prop :=
  ∀ (s : State) (v w : Nat), s.Legal → 1 ≤ w → w ≤ 8 → v < 2 ^ s.cfg.valueWidth.bits →
    ∃ t, exec (.advance v w) s = .next t ∧
      shown t.log = shown s.log ++ [(s.pos, digitByte s.cfg v (7 - s.pos.toNat))] ∧
      (s.pos = 0 → shown t.log = shown s.log ++ [(0, digitByte s.cfg v 7)]) ∧
      (s.pos = 7 → shown t.log = shown s.log ++ [(7, digitByte s.cfg v 0)])

/-- Digits above place 7 are never shown and never an error: a value and its remainder modulo 10^8 tick
alike (43_scan_controller.md R130, which the spec derives). -/
def Obligations.OnlyLowEightDigitsMatter : Prop :=
  ∀ (s : State) (v w : Nat), v < 2 ^ s.cfg.valueWidth.bits →
    exec (.advance v w) s = exec (.advance (v % 10 ^ 8) w) s

/-- A leading zero is shown as the digit 0, not as the blank (43_scan_controller.md R135, which the spec
derives). -/
def Obligations.LeadingZerosAreShown : Prop :=
  ∀ (s : State) (v w : Nat), s.Legal → 1 ≤ w → w ≤ 8 → v < 2 ^ s.cfg.valueWidth.bits →
    v < 10 ^ (7 - s.pos.toNat) →
    ∃ t, exec (.advance v w) s = .next t ∧
      shown t.log = shown s.log ++
        [(s.pos, applyPolarity s.cfg.polarity (digitPattern s.cfg.rom 0 (by decide)))]

/-- The hex letters, the blank and the decimal point of the ROM are never shown by a tick: two ROMs that
agree on the ten digits tick alike (41_digit_encoder.md R86, which the spec derives). -/
def Obligations.TickReadsOnlyDigitEntries : Prop :=
  ∀ (s t : State) (rom : SegmentRom) (v w : Nat),
    (∀ d (h : d < 10), digitPattern rom d h = digitPattern s.cfg.rom d h) →
    State.Legal { s with cfg := { s.cfg with rom := rom } } →
    exec (.advance v w) s = .next t →
    exec (.advance v w) { s with cfg := { s.cfg with rom := rom } } =
      .next { t with cfg := { s.cfg with rom := rom } }

/-- The segment transform (44_polarity.md R150). -/
def Obligations.SegmentTransform : Prop :=
  ∀ p : Byte, applyPolarity .activeHigh p = p ∧ applyPolarity .activeLow p = p ^^^ 0xFF ∧
    (applyPolarity .activeLow p).toNat = 255 - p.toNat

/-- The properties of the transform (44_polarity.md R153, which the spec derives): it undoes itself, it is
a bijection, the blank is 0x00 or 0xFF, and the default digit 8 (log 9) is 0x7F or 0x80. -/
def Obligations.SegmentTransformProperties : Prop :=
  (∀ pol p, applyPolarity pol (applyPolarity pol p) = p) ∧
  (∀ pol, Function.Bijective (applyPolarity pol)) ∧
  applyPolarity .activeHigh blankPattern = 0x00 ∧ applyPolarity .activeLow blankPattern = 0xFF ∧
  applyPolarity .activeHigh (defaultTable[8]) = 0x7F ∧ applyPolarity .activeLow (defaultTable[8]) = 0x80

/-- Reading back the level driven for a request gives the request, for both polarities (44_polarity.md
R152, decision D13). -/
def Obligations.EnableLevelReadsBack : Prop :=
  ∀ pol a, enActive pol (enLevel pol a) = a

/-- The decoder's output is unknown, all zero, or exactly the selected position, as the latches say
(42_position_decoder.md R109 and 10_state.md R32; decisions D15 and D31; R32 is derived). -/
def Obligations.DecoderOutputFollowsLatches : Prop :=
  ∀ s : State,
    (s.addr = none → s.decoderOutput = none) ∧
    (s.cfg.enableLine = .present → s.en = none → s.decoderOutput = none) ∧
    (∀ p, s.addr = some p → s.cfg.enableLine = .absent →
      ∃ y, s.decoderOutput = some y ∧ ∀ i, i < 8 → y.getLsbD i = decide (i = p.toNat)) ∧
    (∀ p l, s.addr = some p → s.cfg.enableLine = .present → s.en = some l →
      ∃ y, s.decoderOutput = some y ∧
        ∀ i, i < 8 → y.getLsbD i = (enActive s.cfg.enPolarity l && decide (i = p.toNat)))

/-! ### The scan -/

/-- The steady window: held in the window, the scan stays in it, and `n` ticks move it `n` places round
the cycle, whatever values are shown (43_scan_controller.md R127, which the spec derives). -/
def Obligations.SteadyWindow : Prop :=
  ∀ (s : State) (w : Nat) (values : List Nat), s.Legal → 1 ≤ w → w ≤ 8 → ValuesFit s.cfg values →
    s.InWindow w →
    ∃ t, runCommands (ticks w values) s = .next t ∧ t.InWindow w ∧
      t.pos.toNat = wrapFloor w + (s.pos.toNat - wrapFloor w + values.length) % w

/-- From the wrap floor, `W` ticks of one value show its `W` least significant decimal digits, the most
significant of them first, at positions `F` to 7 (43_scan_controller.md R127, which the spec derives). -/
def Obligations.WindowShowsLowDigits : Prop :=
  ∀ (s : State) (v w : Nat), s.Legal → 1 ≤ w → w ≤ 8 → v < 2 ^ s.cfg.valueWidth.bits →
    s.pos.toNat = wrapFloor w →
    ∃ t, runCommands (ticks w (List.replicate w v)) s = .next t ∧ t.pos = s.pos ∧
      shown t.log = shown s.log ++ (List.range w).map fun j =>
        (BitVec.ofNat 3 (wrapFloor w + j), digitByte s.cfg v (w - 1 - j))

/-- The startup transient: below the wrap the scan climbs one position a tick whatever the windows are,
and from position 0 the first eight ticks grant 0, 1, …, 7 and end at the floor of the last window
(43_scan_controller.md R128, decision D20). -/
def Obligations.StartupSweep : Prop :=
  ∀ (s : State) (cmds : List (Nat × Nat)), s.Legal →
    (∀ c ∈ cmds, c.1 < 2 ^ s.cfg.valueWidth.bits ∧ 1 ≤ c.2 ∧ c.2 ≤ 8) →
    (s.pos.toNat + cmds.length ≤ 7 →
      ∃ t, runCommands (cmds.map fun c => .advance c.1 c.2) s = .next t ∧
        t.pos.toNat = s.pos.toNat + cmds.length ∧
        grants t.log = grants s.log ++ List.range' s.pos.toNat cmds.length) ∧
    (∀ v w, s.pos = 0 → cmds.length = 7 → v < 2 ^ s.cfg.valueWidth.bits → 1 ≤ w → w ≤ 8 →
      ∃ t, runCommands ((cmds.map fun c => .advance c.1 c.2) ++ [.advance v w]) s = .next t ∧
        t.pos.toNat = wrapFloor w ∧ grants t.log = grants s.log ++ List.range 8)

/-- A window counts only at the wrap: anywhere below position 7 two windows tick alike, and at position 7
the next position is the floor of the command's own window (43_scan_controller.md R129, which the spec
derives). -/
def Obligations.WindowCountsOnlyAtWrap : Prop :=
  ∀ (s : State) (v w w' : Nat), s.Legal → 1 ≤ w → w ≤ 8 → 1 ≤ w' → w' ≤ 8 →
    (s.pos ≠ 7 → exec (.advance v w) s = exec (.advance v w') s) ∧
    (s.pos = 7 → v < 2 ^ s.cfg.valueWidth.bits →
      ∃ t, exec (.advance v w) s = .next t ∧ t.pos.toNat = 8 - w)

/-- Cycle closure: in the window, `n` ticks return the scan to its start exactly when `W` divides `n`, so
eight do for the windows 1, 2, 4 and 8 only (43_scan_controller.md R132, which the spec derives;
90_conflicts.md C1). -/
def Obligations.CycleClosure : Prop :=
  ∀ (s : State) (w : Nat) (values : List Nat), s.Legal → 1 ≤ w → w ≤ 8 → ValuesFit s.cfg values →
    s.InWindow w →
    ∃ t, runCommands (ticks w values) s = .next t ∧ (t.pos = s.pos ↔ w ∣ values.length) ∧
      (values.length = 8 → (t.pos = s.pos ↔ w = 1 ∨ w = 2 ∨ w = 4 ∨ w = 8))

/-- Fairness: in the window the ticks grant the bus round the cycle in ascending order; `W` of them grant
every window position exactly once and no other; and none twice in a row unless `W` is 1
(43_scan_controller.md R133, which the spec derives). -/
def Obligations.WindowIsServedFairly : Prop :=
  ∀ (s : State) (w : Nat) (values : List Nat), s.Legal → 1 ≤ w → w ≤ 8 → ValuesFit s.cfg values →
    s.InWindow w →
    ∃ t g, runCommands (ticks w values) s = .next t ∧ grants t.log = grants s.log ++ g ∧
      g = (List.range values.length).map
        (fun j => wrapFloor w + (s.pos.toNat - wrapFloor w + j) % w) ∧
      (values.length = w → g.Perm (List.range' (wrapFloor w) w)) ∧
      (w ≠ 1 → g.IsChain (· ≠ ·))

/-- A SELECT between two ticks moves the address lines and not the scan: the next ADVANCE does what it
would have done without it (42_position_decoder.md R105, decision D24; 70_reset_and_hazards.md R185). -/
def Obligations.SelectBetweenTicksIsHarmless : Prop :=
  ∀ (s : State) (p : Position) (v w : Nat), s.Legal → 1 ≤ w → w ≤ 8 → v < 2 ^ s.cfg.valueWidth.bits →
    ∃ t₁ t select tick, exec (.select p.toNat) s = .next t₁ ∧ t₁.addr = some p ∧ t₁.pos = s.pos ∧
      t₁.seg = s.seg ∧
      t₁.log = s.log ++ [select] ∧ exec (.advance v w) s = .next t ∧ t.log = s.log ++ [tick] ∧
      exec (.advance v w) t₁ = .next { t with log := s.log ++ [select, tick] }

/-! ### Every reachable state -/

/-- The invariant `Inv` holds right after reset, for every configuration of this hardware. -/
def Obligations.InvHoldsAtReset : Prop :=
  Inv State.reset ∧ ∀ cfg, configDefect cfg = none → Inv (State.powerOn cfg)

/-- Every step keeps `Inv`: the latches are what the event record says, the bus carries the blank between
commands, an absent enable line has no level, and every response and event list has a shape the rules
give (10_state.md R21, R24, R27, R34; 43_scan_controller.md R131, R134; 60_exceptions.md R162). -/
def Obligations.StepKeepsInv : Prop :=
  ∀ s t : State, Inv s → step s = .next t → Inv t

/-- No ghosting: in every state the invariant allows, at the moment a command drives the address lines the
segment bus carries the blank or its level is unknown, as it is from a reset to the first write after it
(43_scan_controller.md R131, which the spec derives; 70_reset_and_hazards.md R184, R185; 10_state.md R34,
decision D12). -/
def Obligations.AddressMovesUnderBlank : Prop :=
  ∀ s : State, Inv s →
    ∀ (earlier later : List Record) (r : Response) (before after : List Event) (p : Position),
      s.log = earlier ++ .command r (before ++ .addrWrite p :: after) :: later →
      (portsDuring earlier before).seg = none ∨
        (portsDuring earlier before).seg = some (applyPolarity s.cfg.polarity blankPattern)

/-- In the event list of every state the invariant allows, the last SegWrite event before each AddrWrite
event, if there is one, is that of the blank (43_scan_controller.md R131, which the spec derives). This is
about events and not about the level of the bus, which a reset between them makes unknown. -/
def Obligations.LastSegWriteBeforeAddrWriteIsBlank : Prop :=
  ∀ s : State, Inv s → ∀ (before after : List Event) (p : Position),
    observedEvents s.log = before ++ .addrWrite p :: after →
    lastSegWrite before = none ∨ lastSegWrite before = some (applyPolarity s.cfg.polarity blankPattern)

/-- A latch that holds a level was driven to it since the last reset: the record ends in a part that has no
reset and has the event (10_state.md R34, decision D12). -/
def Obligations.KnownLevelWasDriven : Prop :=
  ∀ s : State, Inv s → ∀ e : Event, s.ports.Holds e →
    ∃ earlier later, s.log = earlier ++ later ∧ .reset ∉ later ∧ e ∈ observedEvents later
end

