-- ==== Sys2Proof/Laws/State.lean ====
section
/-!
SUPPORT. One lemma per field per update of State, so that no later proof unfolds one.
-/

namespace Sys2Proof.Machine

/-! ### One port write -/

@[simp] theorem State.latch_cfg (s : State) (e : Event) : (s.latch e).cfg = s.cfg := by cases e <;> rfl
@[simp] theorem State.latch_pos (s : State) (e : Event) : (s.latch e).pos = s.pos := by cases e <;> rfl
@[simp] theorem State.latch_pending (s : State) (e : Event) : (s.latch e).pending = s.pending := by
  cases e <;> rfl
@[simp] theorem State.latch_log (s : State) (e : Event) : (s.latch e).log = s.log := by cases e <;> rfl
@[simp] theorem State.latch_ports (s : State) (e : Event) : (s.latch e).ports = s.ports.see e := by
  cases e <;> rfl

/-! ### Port writes in order -/

@[simp] theorem State.drive_nil (s : State) : s.drive [] = s := rfl
@[simp] theorem State.drive_cons (s : State) (e : Event) (es : List Event) :
    s.drive (e :: es) = (s.latch e).drive es := rfl

@[simp] theorem State.drive_cfg (s : State) (es : List Event) : (s.drive es).cfg = s.cfg := by
  induction es generalizing s with
  | nil => rfl
  | cons e es ih => simp [ih]

@[simp] theorem State.drive_pos (s : State) (es : List Event) : (s.drive es).pos = s.pos := by
  induction es generalizing s with
  | nil => rfl
  | cons e es ih => simp [ih]

@[simp] theorem State.drive_pending (s : State) (es : List Event) : (s.drive es).pending = s.pending := by
  induction es generalizing s with
  | nil => rfl
  | cons e es ih => simp [ih]

@[simp] theorem State.drive_log (s : State) (es : List Event) : (s.drive es).log = s.log := by
  induction es generalizing s with
  | nil => rfl
  | cons e es ih => simp [ih]

@[simp] theorem State.drive_ports (s : State) (es : List Event) :
    (s.drive es).ports = es.foldl Ports.see s.ports := by
  induction es generalizing s with
  | nil => rfl
  | cons e es ih => simp [ih]

/-! ### The end of a command -/

section
variable (s : State) (st : Status) (pat : Option Byte) (es : List Event)

@[simp] theorem State.finish_cfg : (s.finish st pat es).cfg = s.cfg := by simp [State.finish]
@[simp] theorem State.finish_pos : (s.finish st pat es).pos = s.pos := by simp [State.finish]
@[simp] theorem State.finish_pending : (s.finish st pat es).pending = s.pending := by simp [State.finish]
@[simp] theorem State.finish_log :
    (s.finish st pat es).log = s.log ++ [.command ⟨st, pat⟩ es] := rfl
@[simp] theorem State.finish_ports : (s.finish st pat es).ports = es.foldl Ports.see s.ports :=
  s.drive_ports es
@[simp] theorem State.finish_nil_addr : (s.finish st pat []).addr = s.addr := rfl
@[simp] theorem State.finish_nil_seg : (s.finish st pat []).seg = s.seg := rfl
@[simp] theorem State.finish_nil_en : (s.finish st pat []).en = s.en := rfl

@[simp] theorem State.fail_cfg : (s.fail st).cfg = s.cfg := by simp [State.fail]
@[simp] theorem State.fail_pos : (s.fail st).pos = s.pos := by simp [State.fail]
@[simp] theorem State.fail_addr : (s.fail st).addr = s.addr := rfl
@[simp] theorem State.fail_seg : (s.fail st).seg = s.seg := rfl
@[simp] theorem State.fail_en : (s.fail st).en = s.en := rfl
@[simp] theorem State.fail_pending : (s.fail st).pending = s.pending := by simp [State.fail]
@[simp] theorem State.fail_log : (s.fail st).log = s.log ++ [.command ⟨st, none⟩ []] := rfl
@[simp] theorem State.fail_ports : (s.fail st).ports = s.ports := rfl

end

/-- An error changes nothing but what the observer has seen (60_exceptions.md R162). -/
theorem State.fail_eq (s : State) (st : Status) :
    s.fail st = { s with log := s.log ++ [.command ⟨st, none⟩ []] } := rfl

/-! ### Reset -/

@[simp] theorem State.assertReset_cfg (s : State) : s.assertReset.cfg = s.cfg := rfl
@[simp] theorem State.assertReset_pos (s : State) : s.assertReset.pos = 0 := rfl
@[simp] theorem State.assertReset_addr (s : State) : s.assertReset.addr = none := rfl
@[simp] theorem State.assertReset_seg (s : State) : s.assertReset.seg = none := rfl
@[simp] theorem State.assertReset_en (s : State) : s.assertReset.en = none := rfl
@[simp] theorem State.assertReset_pending (s : State) : s.assertReset.pending = s.pending := rfl
@[simp] theorem State.assertReset_log (s : State) : s.assertReset.log = s.log ++ [.reset] := rfl
@[simp] theorem State.assertReset_ports (s : State) : s.assertReset.ports = Ports.unknown := rfl

/-! ### What the host presents -/

@[simp] theorem State.present_cfg (s : State) (r : Request) : (s.present r).cfg = s.cfg := rfl
@[simp] theorem State.present_pos (s : State) (r : Request) : (s.present r).pos = s.pos := rfl
@[simp] theorem State.present_addr (s : State) (r : Request) : (s.present r).addr = s.addr := rfl
@[simp] theorem State.present_seg (s : State) (r : Request) : (s.present r).seg = s.seg := rfl
@[simp] theorem State.present_en (s : State) (r : Request) : (s.present r).en = s.en := rfl
@[simp] theorem State.present_pending (s : State) (r : Request) :
    (s.present r).pending = r :: s.pending := rfl
@[simp] theorem State.present_log (s : State) (r : Request) : (s.present r).log = s.log := rfl

@[simp] theorem nextRequest_present (s : State) (r : Request) :
    nextRequest (s.present r) = some (r, s) := rfl

/-! ### The record -/

@[simp] theorem portsOf_nil : portsOf [] = Ports.unknown := rfl
@[simp] theorem portsOf_append (log : List Record) (r : Record) :
    portsOf (log ++ [r]) = (portsOf log).after r := by simp [portsOf]
@[simp] theorem Ports.holds_addrWrite (ports : Ports) (p : Position) :
    ports.Holds (.addrWrite p) ↔ ports.addr = some p := Iff.rfl
@[simp] theorem Ports.holds_segWrite (ports : Ports) (b : Byte) :
    ports.Holds (.segWrite b) ↔ ports.seg = some b := Iff.rfl
@[simp] theorem Ports.holds_enWrite (ports : Ports) (l : Level) :
    ports.Holds (.enWrite l) ↔ ports.en = some l := Iff.rfl
@[simp] theorem portsDuring_nil (before : List Record) : portsDuring before [] = portsOf before := rfl
@[simp] theorem portsDuring_append (before : List Record) (es : List Event) (e : Event) :
    portsDuring before (es ++ [e]) = (portsDuring before es).see e := by simp [portsDuring]
/-- Nothing driven before a reset is known after it (10_state.md R34). -/
theorem portsOf_reset (log : List Record) : portsOf (log ++ [.reset]) = Ports.unknown := by
  simp [Ports.after]
@[simp] theorem observedEvents_nil : observedEvents [] = [] := rfl
@[simp] theorem observedEvents_append (l₁ l₂ : List Record) :
    observedEvents (l₁ ++ l₂) = observedEvents l₁ ++ observedEvents l₂ := by simp [observedEvents]
@[simp] theorem observedEvents_singleton (r : Record) : observedEvents [r] = r.events := by
  simp [observedEvents]
@[simp] theorem grants_nil : grants [] = [] := rfl
@[simp] theorem grants_append (l₁ l₂ : List Record) : grants (l₁ ++ l₂) = grants l₁ ++ grants l₂ := by
  simp [grants]

end Sys2Proof.Machine
end

