-- ==== Sys2Proof/Laws/Config.lean ====
section
/-!
SUPPORT. What a legal configuration fixes, and what the shared check answers under one.
-/

namespace Sys2Proof.Machine

theorem maxPos_of_legal {cfg : Config} (h : configDefect cfg = none) : cfg.maxPos = 8 := by
  by_contra hne
  simp [configDefect, hne] at h

/-- Under a legal configuration the check passes on what it is given. -/
theorem guarded_of_legal {s : State} (h : configDefect s.cfg = none)
    (o : Host.Outcome State Fault Refusal) : guarded s o = o := by
  simp [guarded, h]

/-- Under any other it refuses, naming the defect. -/
theorem guarded_of_defect {s : State} {d : ConfigDefect} (h : configDefect s.cfg = some d)
    (o : Host.Outcome State Fault Refusal) : guarded s o = .refused (.badConfiguration d) := by
  simp [guarded, h]

/-- All that the check can do when it answers a next state. -/
theorem guarded_next {s t : State} {o : Host.Outcome State Fault Refusal} (h : guarded s o = .next t) :
    configDefect s.cfg = none ∧ o = .next t := by
  cases hd : configDefect s.cfg with
  | some d => rw [guarded_of_defect hd] at h; cases h
  | none => exact ⟨rfl, by rwa [guarded_of_legal hd] at h⟩

theorem selectionInRange_of_legal {cfg : Config} (h : configDefect cfg = none) (p : Nat) :
    selectionInRange cfg p = decide (p ≤ 7) := by
  rw [Bool.eq_iff_iff]
  simp [selectionInRange, maxPos_of_legal h]

theorem windowInRange_of_legal {cfg : Config} (h : configDefect cfg = none) (w : Nat) :
    windowInRange cfg w = decide (1 ≤ w ∧ w ≤ 8) := by
  rw [Bool.eq_iff_iff]
  simp [windowInRange, maxPos_of_legal h]
  omega

theorem valueInRange_eq (cfg : Config) (v : Nat) :
    valueInRange cfg v = decide (v < 2 ^ cfg.valueWidth.bits) := by
  rw [Bool.eq_iff_iff]
  simp [valueInRange]

/-- RomRead of the rich set is the table's entry (20_memory.md R41). -/
theorem romRead_of_rich {rom : SegmentRom} {table : Vector Byte 18} (hr : rom = .digitsHexBlankDot table)
    {i : Nat} (h : i < rom.size) (h' : i < 18) : romRead rom i h = table[i] := by
  subst hr
  rfl

/-- RomRead of the digit-only set is the table's entry (20_memory.md R41). -/
theorem romRead_of_digits {rom : SegmentRom} {table : Vector Byte 10} (hr : rom = .digitsOnly table)
    {i : Nat} (h : i < rom.size) (h' : i < 10) : romRead rom i h = table[i] := by
  subst hr
  rfl

/-- A legal ROM with a blank entry holds 0x00 there (41_digit_encoder.md R81). -/
theorem blank_entry_of_legal {cfg : Config} (h : configDefect cfg = none) {table : Vector Byte 18}
    (hr : cfg.rom = .digitsHexBlankDot table) : table[16] = 0 := by
  by_contra hne
  unfold configDefect at h
  simp only [hr] at h
  split_ifs at h

end Sys2Proof.Machine
end

