-- ==== Sys2Proof/Laws/Decode.lean ====
section
/-!
SUPPORT. The fields of a word as numbers (30_encoding.md R60): each field of a packed word is what was
put in, and a word is its four fields.
-/

namespace Sys2Proof

/-! ### Fields as numbers -/

theorem opField_toNat (w : CommandWord) : (opField w).toNat = w.toNat % 16 := by
  simp [opField]

theorem windowField_toNat (w : CommandWord) : (windowField w).toNat = w.toNat / 16 % 16 := by
  simp [windowField, Nat.shiftRight_eq_div_pow]

theorem byteField_toNat (w : CommandWord) : (byteField w).toNat = w.toNat / 256 % 256 := by
  simp [byteField, Nat.shiftRight_eq_div_pow]

theorem valueField_toNat (w : CommandWord) : (valueField w).toNat = w.toNat / 65536 := by
  have := w.isLt
  simp only [valueField, BitVec.extractLsb'_toNat, Nat.shiftRight_eq_div_pow]
  omega

/-- Appending below is shifting up and adding. -/
theorem toNat_append_eq_add {m n : Nat} (x : BitVec m) (y : BitVec n) :
    (x ++ y).toNat = x.toNat * 2 ^ n + y.toNat := by
  rw [BitVec.toNat_append, ← Nat.shiftLeft_add_eq_or_of_lt y.isLt, Nat.shiftLeft_eq]

/-- The word as a number: `V * 2^16 + K * 2^8 + W * 2^4 + OP` (30_encoding.md R60). -/
theorem packWord_toNat (v : BitVec 32) (k : Byte) (window op : BitVec 4) :
    (packWord v k window op).toNat =
      v.toNat * 2 ^ 16 + k.toNat * 2 ^ 8 + window.toNat * 2 ^ 4 + op.toNat := by
  have h : (packWord v k window op).toNat = (v ++ k ++ window ++ op).toNat := rfl
  rw [h, toNat_append_eq_add, toNat_append_eq_add, toNat_append_eq_add]
  omega

/-! ### The fields of a packed word -/

section
variable (v : BitVec 32) (k : Byte) (window op : BitVec 4)

@[simp] theorem opField_packWord : opField (packWord v k window op) = op := by
  apply BitVec.eq_of_toNat_eq
  rw [opField_toNat, packWord_toNat]
  omega

@[simp] theorem windowField_packWord : windowField (packWord v k window op) = window := by
  apply BitVec.eq_of_toNat_eq
  rw [windowField_toNat, packWord_toNat]
  omega

@[simp] theorem byteField_packWord : byteField (packWord v k window op) = k := by
  apply BitVec.eq_of_toNat_eq
  rw [byteField_toNat, packWord_toNat]
  omega

@[simp] theorem valueField_packWord : valueField (packWord v k window op) = v := by
  apply BitVec.eq_of_toNat_eq
  rw [valueField_toNat, packWord_toNat]
  omega

end

/-- A word is its four fields. -/
theorem packWord_fields (w : CommandWord) :
    packWord (valueField w) (byteField w) (windowField w) (opField w) = w := by
  apply BitVec.eq_of_toNat_eq
  rw [packWord_toNat, valueField_toNat, byteField_toNat, windowField_toNat, opField_toNat]
  omega

end Sys2Proof
end

