-- ==== Sys2Proof/Laws/Exec.lean ====
section
/-!
SUPPORT. All that each command and each step can do, said once: an inversion lemma per meaning and one
for the step.
-/

namespace Sys2Proof.Machine

theorem execEncode_next {sym : Nat} {s t : State} (h : execEncode sym s = .next t) :
    s.Legal ∧ ((∃ hs : sym < s.cfg.rom.size, t = s.finish .ok (some (romRead s.cfg.rom sym hs)) []) ∨
      (s.cfg.rom.size ≤ sym ∧ t = s.fail .invalidSymbol)) := by
  obtain ⟨hl, h⟩ := guarded_next h
  refine ⟨hl, ?_⟩
  split at h
  · exact .inl ⟨‹_›, (by simpa using h.symm)⟩
  · exact .inr ⟨Nat.le_of_not_lt ‹_›, (by simpa using h.symm)⟩

theorem execSelect_next {p : Nat} {s t : State} (h : execSelect p s = .next t) :
    s.Legal ∧ ((p ≤ 7 ∧ t = s.finish .ok none [.addrWrite (BitVec.ofNat 3 p)]) ∨
      (8 ≤ p ∧ t = s.fail .invalidSelection)) := by
  obtain ⟨hl, h⟩ := guarded_next h
  refine ⟨hl, ?_⟩
  rw [selectionInRange_of_legal hl] at h
  split at h
  · exact .inl ⟨by simp_all, (by simpa using h.symm)⟩
  · exact .inr ⟨by simp_all; omega, (by simpa using h.symm)⟩

theorem execEnable_next {a : Bool} {s t : State} (h : execEnable a s = .next t) :
    s.Legal ∧ ((s.cfg.enableLine = .absent ∧ t = s.fail .illegalCommand) ∨
      (s.cfg.enableLine = .present ∧ t = s.finish .ok none [.enWrite (enLevel s.cfg.enPolarity a)])) := by
  obtain ⟨hl, h⟩ := guarded_next h
  refine ⟨hl, ?_⟩
  split at h
  · exact .inl ⟨‹_›, (by simpa using h.symm)⟩
  · exact .inr ⟨‹_›, (by simpa using h.symm)⟩

/-- A tick that completes: the new position, in exact arithmetic, and the three port writes. -/
def ticked (value window : Nat) (s : State) : State :=
  { s with pos := BitVec.ofNat 3 (nextPosition s.cfg.maxPos s.pos.toNat window) }.finish .ok none
    (tickEvents s.cfg s.pos value)

theorem execAdvance_next {v w : Nat} {s t : State} (h : execAdvance v w s = .next t) :
    s.Legal ∧ ((¬ (1 ≤ w ∧ w ≤ 8) ∧ t = s.fail .invalidWindow) ∨
      ((1 ≤ w ∧ w ≤ 8) ∧ 2 ^ s.cfg.valueWidth.bits ≤ v ∧ t = s.fail .invalidValue) ∨
      ((1 ≤ w ∧ w ≤ 8) ∧ v < 2 ^ s.cfg.valueWidth.bits ∧ t = ticked v w s)) := by
  obtain ⟨hl, h⟩ := guarded_next h
  refine ⟨hl, ?_⟩
  rw [windowInRange_of_legal hl, valueInRange_eq] at h
  by_cases hw : 1 ≤ w ∧ w ≤ 8
  · by_cases hv : v < 2 ^ s.cfg.valueWidth.bits
    · simp only [hw, hv] at h
      exact .inr (.inr ⟨hw, hv, by simpa [ticked] using h.symm⟩)
    · simp only [hw, hv] at h
      exact .inr (.inl ⟨hw, Nat.le_of_not_lt hv, by simpa using h.symm⟩)
  · simp only [hw] at h
    exact .inl ⟨hw, by simpa using h.symm⟩

/-- Where the window and the value are in range, the tick completes. -/
theorem execAdvance_of_valid {v w : Nat} {s : State} (hl : s.Legal) (hw : 1 ≤ w ∧ w ≤ 8)
    (hv : v < 2 ^ s.cfg.valueWidth.bits) : execAdvance v w s = .next (ticked v w s) := by
  simp [execAdvance, guarded_of_legal hl, windowInRange_of_legal hl, valueInRange_eq, hw, hv, ticked]

theorem execIllegal_next {s t : State} (h : execIllegal s = .next t) :
    s.Legal ∧ t = s.fail .illegalCommand := by
  obtain ⟨hl, h⟩ := guarded_next h
  exact ⟨hl, by simpa using h.symm⟩

theorem performReset_next {s t : State} (h : performReset s = .next t) :
    s.Legal ∧ t = s.assertReset := by
  obtain ⟨hl, h⟩ := guarded_next h
  exact ⟨hl, by simpa using h.symm⟩

/-! ### A tick -/

@[simp] theorem ticked_cfg (v w : Nat) (s : State) : (ticked v w s).cfg = s.cfg := by simp [ticked]
@[simp] theorem ticked_pending (v w : Nat) (s : State) : (ticked v w s).pending = s.pending := by
  simp [ticked]
@[simp] theorem ticked_en (v w : Nat) (s : State) : (ticked v w s).en = s.en := rfl
@[simp] theorem ticked_addr (v w : Nat) (s : State) : (ticked v w s).addr = some s.pos := rfl
@[simp] theorem ticked_seg (v w : Nat) (s : State) : (ticked v w s).seg = some (blankPinByte s.cfg) := rfl
@[simp] theorem ticked_log (v w : Nat) (s : State) :
    (ticked v w s).log = s.log ++ [.command ⟨.ok, none⟩ (tickEvents s.cfg s.pos v)] := rfl

/-- The new position fits its three bits: nothing is cut off (43_scan_controller.md R126). -/
theorem ticked_pos {v w : Nat} {s : State} (hl : s.Legal) (hw : 1 ≤ w ∧ w ≤ 8) :
    (ticked v w s).pos.toNat = if s.pos.toNat = 7 then 8 - w else s.pos.toNat + 1 := by
  have hp := s.pos.isLt
  simp only [ticked, State.finish_pos, nextPosition, maxPos_of_legal hl, BitVec.toNat_ofNat]
  split_ifs <;> omega

/-! ### A step -/

/-- All that a step can do when it answers a next state. -/
theorem step_next {s t : State} (h : step s = .next t) :
    (s.pending = [] ∧ s.Legal ∧ t = s) ∨
    (∃ rest, s.pending = .reset :: rest ∧ s.Legal ∧ t = { s with pending := rest }.assertReset) ∨
    (∃ w rest i, s.pending = .command w :: rest ∧ decode w = .ok i ∧
      exec i { s with pending := rest } = .next t) ∨
    (∃ w rest e, s.pending = .command w :: rest ∧ decode w = .error e ∧ s.Legal ∧
      t = { s with pending := rest }.fail .illegalCommand) := by
  unfold step nextRequest at h
  match hp : s.pending with
  | [] =>
    simp only [hp] at h
    obtain ⟨hl, h⟩ := guarded_next h
    exact .inl ⟨rfl, hl, by simpa using h.symm⟩
  | .reset :: rest =>
    simp only [hp] at h
    obtain ⟨hl, h⟩ := performReset_next h
    exact .inr (.inl ⟨rest, rfl, hl, h⟩)
  | .command w :: rest =>
    simp only [hp, perform, performCommand] at h
    match hd : decode w with
    | .ok i => simp only [hd] at h; exact .inr (.inr (.inl ⟨w, rest, i, rfl, hd, h⟩))
    | .error e =>
      simp only [hd] at h
      obtain ⟨hl, h⟩ := execIllegal_next h
      exact .inr (.inr (.inr ⟨w, rest, e, rfl, hd, hl, h⟩))

end Sys2Proof.Machine
end

