-- ==== Sys2Proof/Laws/PerInstr.lean ====
section
/-!
SUPPORT. Statements made instruction by instruction: every command's word carries its opcode.
-/

namespace Sys2Proof.Laws.OpcodeInWord

/-- The word of a command has the command's opcode in `w[3:0]` (30_encoding.md R60, R61). -/
def Statement (i : Instr) : Prop := opField (encode i) = opcodeOf i

theorem encode (sym : Nat) : Statement (.encode sym) := opField_packWord ..
theorem select (pos : Nat) : Statement (.select pos) := opField_packWord ..
theorem enable (active : Bool) : Statement (.enable active) := opField_packWord ..
theorem advance (value window : Nat) : Statement (.advance value window) := opField_packWord ..

end Sys2Proof.Laws.OpcodeInWord
end

