-- ==== Sys2Proof/Tests/Slice0.lean ====
section
/-!
SUPPORT. The model's own tests. Expected results are those of spec/95_test_vectors.md and of the worked
examples of the rules, or are computed by hand from them. Bytes of the ROM are the default table's
(41_digit_encoder.md R82). The last part shows, for every statement with hypotheses, operands that meet
them all.
-/

namespace Sys2Proof.Tests

open Sys2Proof.Machine

/-! ### Helpers -/

/-- The next state, if there is one. -/
def after : Host.Outcome State Fault Refusal → Option State
  | .next s => some s
  | _ => none

/-- The refusal, if there is one. -/
def refusalOf : Host.Outcome State Fault Refusal → Option Refusal
  | .refused r => some r
  | _ => none

/-- The reading of a word, if it has one. -/
def reads (w : CommandWord) : Option Instr := (decode w).toOption

/-- What one step with `w` presented adds to the observer's record. -/
def answers (s : State) (w : CommandWord) : Option (List Record) :=
  (after (step (s.present (.command w)))).map fun t => t.log.drop s.log.length

/-- A state as 95_test_vectors.md writes it: `(pos, addr, seg, en)`. -/
structure End where
  pos : Position
  addr : Option Position
  seg : Option Byte
  en : Option Level
  deriving DecidableEq, Repr

/-- The end state of one step with `w` presented. -/
def ends (s : State) (w : CommandWord) : Option End :=
  (after (step (s.present (.command w)))).map fun t => ⟨t.pos, t.addr, t.seg, t.en⟩

/-- A state of the default configuration. -/
def at' (pos : Position) (addr : Option Position) (seg : Option Byte) : State :=
  { State.reset with pos := pos, addr := addr, seg := seg }

/-- The default configuration with VALUE_WIDTH 16. -/
def narrow (s : State) : State := { s with cfg := { s.cfg with valueWidth := .w16 } }

/-- With an enable line of the given polarity. -/
def lined (pol : Polarity) (s : State) : State :=
  { s with cfg := { s.cfg with enableLine := .present, enPolarity := pol } }

/-- With POLARITY ActiveLow. -/
def activeLow (s : State) : State := { s with cfg := { s.cfg with polarity := .activeLow } }

/-- With the digit-only symbol set. -/
def digitsOnly (s : State) : State := { s with cfg := { s.cfg with rom := .digitsOnly defaultDigits } }

/-! ### Well-formedness: an ill-formed term for each check -/

theorem test_wf_encode : Instr.wellFormed (.encode 256) = false := by decide
theorem test_wf_select : Instr.wellFormed (.select 256) = false := by decide
theorem test_wf_advance_value : Instr.wellFormed (.advance (2 ^ 32) 4) = false := by decide
theorem test_wf_advance_window : Instr.wellFormed (.advance 5 16) = false := by decide
theorem test_wf_accepts_out_of_range :
    Instr.wellFormed (.encode 255) && Instr.wellFormed (.select 255) &&
      Instr.wellFormed (.advance (2 ^ 32 - 1) 15) && Instr.wellFormed (.enable true) = true := by decide

/-! ### Decoding: words written out field by field, V, K, W, OP (30_encoding.md R60) -/

theorem test_decode_encode_bits :
    reads (0#32 ++ 0b00010001#8 ++ 0b0000#4 ++ 0b0001#4) = some (.encode 17) := by decide
theorem test_decode_select_bits :
    reads (0#32 ++ 0b00000101#8 ++ 0b0000#4 ++ 0b0010#4) = some (.select 5) := by decide
theorem test_decode_enable_bits :
    reads (0#32 ++ 0b00000001#8 ++ 0b0000#4 ++ 0b0011#4) = some (.enable true) ∧
      reads (0#32 ++ 0b00000000#8 ++ 0b0000#4 ++ 0b0011#4) = some (.enable false) := by decide
theorem test_decode_advance_bits :
    reads (0b10011010010#32 ++ 0#8 ++ 0b0100#4 ++ 0b0100#4) = some (.advance 1234 4) := by decide

/-- The legal rows of 95_test_vectors.md section 2.1. -/
theorem test_decode_legal_words :
    reads 0x000000000001 = some (.encode 0) ∧ reads 0x00000000FF01 = some (.encode 255) ∧
    reads 0x000000000702 = some (.select 7) ∧ reads 0x000000000802 = some (.select 8) ∧
    reads 0x000004D20044 = some (.advance 1234 4) ∧ reads 0x000000000004 = some (.advance 0 0) := by decide

/-- The ILLEGAL rows of 95_test_vectors.md section 2.1. -/
theorem test_decode_illegal_words :
    reads 0x000000000011 = none ∧ reads 0x000100000001 = none ∧ reads 0x000000000203 = none ∧
    reads 0x0000000001F4 = none ∧ reads 0x000000000000 = none ∧ reads 0xFFFFFFFFFFFF = none ∧
    reads 0x000000000005 = none := by decide

theorem test_decode_names_the_defect :
    decode 0x000000000011 = .error (.reservedField 1) ∧
      decode 0x000000000005 = .error (.reservedOpcode 5) := by exact ⟨rfl, rfl⟩

/-- The encoder's words of 30_encoding.md R69. -/
theorem test_encode_worked :
    encode (.encode 16) = 0x000000001001 ∧ encode (.select 8) = 0x000000000802 ∧
    encode (.enable true) = 0x000000000103 ∧ encode (.advance 98765432 8) = 0x05E30A780084 := by decide

theorem test_bytes_both_orders :
    decodeBytes .lowFirst [0x44, 0x00, 0xD2, 0x04, 0x00, 0x00] = .ok (.advance 1234 4) ∧
      decodeBytes .highFirst [0x00, 0x00, 0x04, 0xD2, 0x00, 0x44] = .ok (.advance 1234 4) := by
  exact ⟨rfl, rfl⟩

/-! ### The assembler (30_encoding.md R67 to R69) -/

theorem test_assemble_text :
    assemble "encode DP ; the point\n\nADVANCE 0x4D2,4\ndisable" =
      .ok [0x000000001101, 0x000004D20044, 0x000000000003] := by rfl
theorem test_assemble_refuses :
    assemble "SELECT 256" = .error .doesNotFit ∧ assemble "ENABLE 2" = .error .doesNotFit ∧
    assemble "ADVANCE 1, 16" = .error .doesNotFit ∧ assemble "ADVANCE 1 4" = .error .operandShape ∧
    assemble "SELECT BLANK" = .error .notALiteral ∧ assemble "JUMP 1" = .error .unknownMnemonic := by
  exact ⟨rfl, rfl, rfl, rfl, rfl, rfl⟩

/-! ### ENCODE (95_test_vectors.md section 2.2) -/

theorem test_encode_rich :
    answers (activeLow State.reset) 0x000000000201 = some [.command ⟨.ok, some 0x5B⟩ []] ∧
    answers State.reset 0x000000001001 = some [.command ⟨.ok, some 0x00⟩ []] ∧
    answers State.reset 0x000000001101 = some [.command ⟨.ok, some 0x80⟩ []] ∧
    answers State.reset 0x000000001201 = some [.command ⟨.invalidSymbol, none⟩ []] := by decide
theorem test_encode_digits_only :
    answers (digitsOnly State.reset) 0x000000000901 = some [.command ⟨.ok, some 0x6F⟩ []] ∧
    answers (digitsOnly State.reset) 0x000000000A01 = some [.command ⟨.invalidSymbol, none⟩ []] := by decide

/-! ### SELECT (95_test_vectors.md section 2.3 and L1.6) -/

theorem test_select_valid :
    answers (at' 5 (some 2) (some 0)) 0x000000000702 = some [.command ⟨.ok, none⟩ [.addrWrite 7]] ∧
    ends (at' 5 (some 2) (some 0)) 0x000000000702 = some ⟨5, some 7, some 0, none⟩ := by decide
theorem test_select_invalid :
    answers (at' 0 (some 3) none) 0x000000000802 = some [.command ⟨.invalidSelection, none⟩ []] ∧
    ends (at' 0 (some 3) none) 0x000000000802 = some ⟨0, some 3, none, none⟩ := by decide

/-! ### ENABLE and the decoder's output (95_test_vectors.md section 2.4) -/

theorem test_enable_levels :
    answers (lined .activeHigh State.reset) 0x000000000103 = some [.command ⟨.ok, none⟩ [.enWrite 1]] ∧
    answers (lined .activeHigh State.reset) 0x000000000003 = some [.command ⟨.ok, none⟩ [.enWrite 0]] ∧
    ends (lined .activeLow State.reset) 0x000000000103 = some ⟨0, none, none, some 0⟩ ∧
    ends (lined .activeLow State.reset) 0x000000000003 = some ⟨0, none, none, some 1⟩ := by decide
theorem test_enable_absent :
    answers State.reset 0x000000000103 = some [.command ⟨.illegalCommand, none⟩ []] := by decide
theorem test_decoder_output :
    State.decoderOutput { lined .activeHigh State.reset with addr := some 3, en := some 1 } = some 0b00001000 ∧
    State.decoderOutput { lined .activeHigh State.reset with addr := some 3, en := some 0 } = some 0 ∧
    State.decoderOutput { lined .activeHigh State.reset with addr := some 3 } = none ∧
    State.decoderOutput { State.reset with addr := some 3 } = some 0b00001000 ∧
    State.decoderOutput State.reset = none := by decide

/-! ### ADVANCE (95_test_vectors.md section 2.6) -/

theorem test_advance_ticks :
    answers State.reset 0x000004D20044 =
      some [.command ⟨.ok, none⟩ [.addrWrite 0, .segWrite 0x3F, .segWrite 0x00]] ∧
    ends (at' 7 (some 6) (some 0)) 0x000004D20044 = some ⟨4, some 7, some 0, none⟩ ∧
    ends (at' 7 (some 6) (some 0)) 0x000004D20014 = some ⟨7, some 7, some 0, none⟩ ∧
    ends (at' 2 (some 1) (some 0)) 0x000004D20044 = some ⟨3, some 2, some 0, none⟩ ∧
    answers State.reset 0xFFFFFFFF0084 =
      some [.command ⟨.ok, none⟩ [.addrWrite 0, .segWrite 0x6F, .segWrite 0x00]] ∧
    answers (activeLow State.reset) 0x000004D20044 =
      some [.command ⟨.ok, none⟩ [.addrWrite 0, .segWrite 0xC0, .segWrite 0xFF]] := by decide
theorem test_advance_errors :
    answers (at' 3 (some 5) (some 0)) 0x000000050004 = some [.command ⟨.invalidWindow, none⟩ []] ∧
    answers (at' 3 (some 5) (some 0)) 0x000000050094 = some [.command ⟨.invalidWindow, none⟩ []] ∧
    answers (narrow (at' 3 (some 5) (some 0))) 0x000100000084 = some [.command ⟨.invalidValue, none⟩ []] ∧
    answers (narrow (at' 3 (some 5) (some 0))) 0x000100000004 = some [.command ⟨.invalidWindow, none⟩ []] ∧
    ends (narrow (at' 3 (some 5) (some 0))) 0x000100000084 = some ⟨3, some 5, some 0, none⟩ ∧
    ends (narrow (at' 3 (some 5) (some 0))) 0x0000FFFF0084 = some ⟨4, some 3, some 0, none⟩ := by decide

/-! ### Steps, helpers, tables -/

theorem test_illegal_word_answers :
    answers State.reset 0 = some [.command ⟨.illegalCommand, none⟩ []] ∧
    ends (at' 3 (some 5) (some 0)) 0x000000000144 = some ⟨3, some 5, some 0, none⟩ := by decide
theorem test_reset_step :
    (after (step ((at' 3 (some 5) (some 0)).present .reset))).map (fun t => End.mk t.pos t.addr t.seg t.en) =
      some ⟨0, none, none, none⟩ ∧
    (after (step ((at' 3 (some 5) (some 0)).present .reset))).map (·.log) = some [.reset] := by decide
theorem test_bad_configuration_refused :
    refusalOf (exec (.select 1) { State.reset with cfg := { defaultConfig with decoder := .absent } }) =
      some (.badConfiguration .decoderAbsent) ∧
    refusalOf (exec (.select 1) { State.reset with cfg := { defaultConfig with maxPos := 4 } }) =
      some (.badConfiguration .maxPosNotEight) ∧
    refusalOf (exec (.select 1)
        { State.reset with
          cfg := { defaultConfig with rom := .digitsHexBlankDot (defaultTable.set 16 0xFF) } }) =
      some (.badConfiguration .blankEntryNotZero) := by decide

/-- Section 2.5. -/
theorem test_digits :
    [digitAt 1234 0, digitAt 1234 3, digitAt 1234 4, digitAt 98765432 7, digitAt 4294967295 7,
      digitAt 4294967295 6, digitAt 65535 4, digitAt 65535 5] = [4, 1, 0, 9, 9, 4, 6, 0] := by decide

/-- The third column of the table of 41_digit_encoder.md R82: the segments of digits 0..9. -/
def digitSegments : List (List Segment) :=
  [[.a, .b, .c, .d, .e, .f], [.b, .c], [.a, .b, .d, .e, .g], [.a, .b, .c, .d, .g], [.b, .c, .f, .g],
    [.a, .c, .d, .f, .g], [.a, .c, .d, .e, .f, .g], [.a, .b, .c], [.a, .b, .c, .d, .e, .f, .g],
    [.a, .b, .c, .d, .f, .g]]

/-- The same column for A..F, the blank and the decimal point. -/
def letterSegments : List (List Segment) :=
  [[.a, .b, .c, .e, .f, .g], [.c, .d, .e, .f, .g], [.a, .d, .e, .f], [.b, .c, .d, .e, .g],
    [.a, .d, .e, .f, .g], [.a, .e, .f, .g], [], [.dp]]

def allSegments : List Segment := [.a, .b, .c, .d, .e, .f, .g, .dp]

theorem test_default_table_segments :
    defaultTable.toList.map (fun b => allSegments.filter (lit b)) = digitSegments ++ letterSegments := by decide

/-! ### The host's two functions -/

theorem test_table_words :
    decodeTableWord 48 0x000000000001 = some (.encode 0) ∧ decodeTableWord 48 0x000000000002 = some (.select 0) ∧
    decodeTableWord 48 0x000000000003 = some (.enable false) ∧
    decodeTableWord 48 0x000000000004 = some (.advance 0 0) := by decide
theorem test_fetch_word_runs :
    (after (step (State.reset.withFetchWord 48 0x000000000502))).map (·.addr) = some (some 5) := by decide

/-! ### Witnesses: every statement's hypotheses can be met

Each theorem is about the statement its name gives. States used by several of them come first. -/

/-- A state with every part of the configuration away from the default one. -/
def other : State := { digitsOnly (narrow (activeLow (lined .activeLow State.reset))) with pos := 7, addr := some 7 }

/-- The state after one tick from reset, and the same with a SELECT 2 after it. -/
def ticked1 : State :=
  { State.reset with
    pos := 1, addr := some 0, seg := some 0,
    log := [.command ⟨.ok, none⟩ [.addrWrite 0, .segWrite 0x3F, .segWrite 0x00]] }

def selected2 : State :=
  { ticked1 with
    addr := some 2,
    log := ticked1.log ++ [.command ⟨.ok, none⟩ [.addrWrite 2]] }

def waiting (s : State) (w : CommandWord) : State := { s with pending := [.command w] }

theorem test_legal_states : State.reset.Legal ∧ other.Legal ∧ ticked1.Legal ∧ selected2.Legal := by decide

theorem test_witness_DecodeFollowsFields :
    (wordOP 0xFF01 = 1 ∧ wordW 0xFF01 = 0 ∧ wordV 0xFF01 = 0) ∧
    (wordOP 0xFF02 = 2 ∧ wordW 0xFF02 = 0 ∧ wordV 0xFF02 = 0) ∧
    (wordOP 0x103 = 3 ∧ wordW 0x103 = 0 ∧ wordV 0x103 = 0 ∧ wordK 0x103 < 2) ∧
    (wordOP 0xFFFFFFFF00F4 = 4 ∧ wordK 0xFFFFFFFF00F4 = 0) ∧
    (¬ ((wordOP 0x203 = 1 ∨ wordOP 0x203 = 2) ∧ wordW 0x203 = 0 ∧ wordV 0x203 = 0) ∧
      ¬ (wordOP 0x203 = 3 ∧ wordW 0x203 = 0 ∧ wordV 0x203 = 0 ∧ wordK 0x203 < 2) ∧
      ¬ (wordOP 0x203 = 4 ∧ wordK 0x203 = 0)) := by decide
theorem test_witness_EncoderIsTheFormula : 255 < 2 ^ 8 ∧ 2 ^ 32 - 1 < 2 ^ 32 ∧ 15 < 2 ^ 4 := by decide
theorem test_witness_DecodeOfEncode :
    Instr.wellFormed (.advance (2 ^ 32 - 1) 15) = true ∧ Instr.wellFormed (.encode 255) = true ∧
      Instr.wellFormed (.select 255) = true ∧ Instr.wellFormed (.enable true) = true := by decide
theorem test_witness_EncodeOfDecode : decode 0xFFFFFFFF00F4 = .ok (.advance (2 ^ 32 - 1) 15) := rfl
theorem test_witness_SerialisedWordDecodes :
    ([0, 0, 0, 0, 0] : List Byte).length ≠ 6 ∧ ([] : List Byte).length ≠ 6 ∧
      ([0, 0, 0, 0, 0, 0, 0] : List Byte).length ≠ 6 := by decide
theorem test_witness_AssembledCommandFits :
    assembleLine "ADVANCE 4294967295, 15".toList = .ok (some (.advance 4294967295 15)) := rfl
theorem test_witness_StepRunsDecodedCommand :
    (waiting State.reset 0x502).pending = .command 0x502 :: [] ∧ decode 0x502 = .ok (.select 5) := ⟨rfl, rfl⟩
theorem test_witness_IllegalWordChangesNothing :
    (waiting State.reset 0).Legal ∧ (waiting State.reset 0).pending = .command 0 :: [] ∧ wordOP 0 = 0 ∧
    5 ≤ wordOP 0x5 ∧ ((wordOP 0x11 = 1 ∨ wordOP 0x11 = 2) ∧ (wordW 0x11 ≠ 0 ∨ wordV 0x11 ≠ 0)) ∧
    (wordOP 0x203 = 3 ∧ (wordW 0x203 ≠ 0 ∨ wordV 0x203 ≠ 0 ∨ 2 ≤ wordK 0x203)) ∧
    (wordOP 0x104 = 4 ∧ wordK 0x104 ≠ 0) := by decide
theorem test_witness_ResetInputClears :
    (other.present .reset).Legal ∧ (other.present .reset).pending = .reset :: [] := by decide
theorem test_witness_NothingPresentedNothingHappens : other.Legal ∧ other.pending = [] := by decide
theorem test_witness_QueuedWordsRunInOrder :
    (∀ i ∈ [Instr.select 5, .advance 7 3], i.wellFormed = true) ∧
    State.pending { other with pending := [.command (encode (.select 5)), .command (encode (.advance 7 3))] } =
      [Instr.select 5, .advance 7 3].map (fun i => .command (encode i)) := by decide
theorem test_witness_EncodeReturnsRomEntry :
    State.reset.Legal ∧ 17 < State.reset.cfg.rom.size ∧ State.reset.cfg.rom.size ≤ 18 ∧
      other.Legal ∧ 9 < other.cfg.rom.size ∧ other.cfg.rom.size ≤ 10 ∧
      State.reset.cfg.rom = .digitsHexBlankDot defaultTable ∧ 17 < 18 ∧
      other.cfg.rom = .digitsOnly defaultDigits ∧ 9 < 10 := by decide
theorem test_witness_EncodeCornerSymbols :
    State.reset.Legal ∧ State.reset.cfg.rom.symbolSet = .digitsHexBlankDot ∧
      other.Legal ∧ other.cfg.rom.symbolSet = .digitsOnly ∧ 10 ≤ 10 ∧ 18 ≤ 18 := by decide
theorem test_witness_EncodeReadsOnlyTheRom :
    ticked1.Legal ∧ (activeLow State.reset).Legal ∧ ticked1.cfg.rom = (activeLow State.reset).cfg.rom := by decide
theorem test_witness_SelectDrivesAddress : State.reset.Legal ∧ other.Legal := by decide
theorem test_witness_SelectOutOfRangeChangesNothing : other.Legal ∧ 8 ≤ 8 := by decide
theorem test_witness_SelectWordStep :
    255 < 2 ^ 8 ∧ (waiting other 0x702).Legal ∧ (waiting other 0x702).pending = .command 0x702 :: [] ∧
    (wordOP 0x702 = 2 ∧ wordW 0x702 = 0 ∧ wordV 0x702 = 0 ∧ wordK 0x702 ≤ 7) ∧
    (wordOP 0x802 = 2 ∧ wordW 0x802 = 0 ∧ wordV 0x802 = 0 ∧ 8 ≤ wordK 0x802) ∧
    (wordOP 0x10002 = 2 ∧ (wordW 0x10002 ≠ 0 ∨ wordV 0x10002 ≠ 0)) := by decide
theorem test_witness_AddressLinesReproducePosition : other.Legal ∧ 7 ≤ 7 ∧ 2 < 3 := by decide
theorem test_witness_SelectIsIdempotent : other.Legal := by decide
theorem test_witness_EnableDrivesPin :
    other.Legal ∧ other.cfg.enableLine = .present ∧ State.reset.Legal ∧
      State.reset.cfg.enableLine = .absent := by decide
theorem test_witness_EnableWordStep :
    (waiting other 0x103).Legal ∧ (waiting other 0x103).pending = .command 0x103 :: [] ∧
    (wordOP 0x103 = 3 ∧ wordW 0x103 = 0 ∧ wordV 0x103 = 0 ∧ wordK 0x103 < 2) ∧
    (waiting other 0x103).cfg.enableLine = .present ∧
    (wordOP 0x203 = 3 ∧ 2 ≤ wordK 0x203) ∧ (waiting State.reset 0x103).cfg.enableLine = .absent := by decide
theorem test_witness_EnableGatesOutput :
    other.Legal ∧ other.cfg.enableLine = .present ∧ other.addr = some 7 := by decide
theorem test_witness_AdvanceMakesOneTick :
    other.Legal ∧ 1 ≤ 8 ∧ 8 ≤ 8 ∧ 65535 < 2 ^ other.cfg.valueWidth.bits ∧ State.reset.Legal ∧ 1 ≤ 1 ∧
      4294967295 < 2 ^ State.reset.cfg.valueWidth.bits ∧
      State.reset.cfg.rom = .digitsHexBlankDot defaultTable ∧ 4294967295 / 10 ^ 7 % 10 = 9 ∧ 9 < 18 ∧
      other.cfg.rom = .digitsOnly defaultDigits ∧ 65535 / 10 ^ 0 % 10 = 5 ∧ 5 < 10 := by decide
theorem test_witness_AdvanceRejectsOperands :
    other.Legal ∧ (0 = 0 ∨ 9 ≤ 0) ∧ (9 = 0 ∨ 9 ≤ 9) ∧ 1 ≤ 1 ∧ 1 ≤ 8 ∧
      2 ^ other.cfg.valueWidth.bits ≤ 65536 := by decide
theorem test_witness_CommandFrames :
    (after (exec (.encode 3) other)).isSome ∧ (after (exec (.select 3) other)).isSome ∧
      (after (exec (.enable true) other)).isSome ∧ (after (exec (.advance 3 3) other)).isSome := by decide
theorem test_witness_PositionAndEnableIndependent :
    (after (exec (.select 7) other)).isSome ∧ (after (exec (.advance 65535 8) other)).isSome ∧
      (after (exec (.enable false) other)).isSome := by decide
theorem test_witness_OnlyAdvanceTouchesScan :
    reads 0x502 = some (.select 5) ∧ (after (performCommand 0x502 other)).isSome := by decide
theorem test_witness_RomNeverChanges : (after (step (waiting other 0x502))).isSome := by decide
theorem test_witness_ErrorsChangeNothing :
    (waiting other 0x802).pending = .command 0x802 :: [] ∧ (after (step (waiting other 0x802))).isSome := by
  decide
theorem test_witness_RecordAndQueueNotRead : (after (exec (.advance 5 8) ticked1)).isSome := by decide
theorem test_witness_EveryRequestCompletes :
    other.Legal ∧ ¬ State.Legal { other with cfg := { other.cfg with maxPos := 4 } } := by decide
theorem test_witness_ZeroPadding : 1234 < 10 ^ 4 ∧ 0 < 10 ^ 0 := by decide
theorem test_witness_PositionShowsPlace :
    State.reset.Legal ∧ 1 ≤ 1 ∧ 1 ≤ 8 ∧ 98765432 < 2 ^ State.reset.cfg.valueWidth.bits ∧
      State.reset.pos = 0 ∧ other.Legal ∧ 65535 < 2 ^ other.cfg.valueWidth.bits ∧ other.pos = 7 := by decide
theorem test_witness_OnlyLowEightDigitsMatter : 4294967295 < 2 ^ State.reset.cfg.valueWidth.bits := by decide
theorem test_witness_LeadingZerosAreShown :
    ticked1.Legal ∧ 1 ≤ 8 ∧ 8 ≤ 8 ∧ 999999 < 2 ^ ticked1.cfg.valueWidth.bits ∧
      999999 < 10 ^ (7 - ticked1.pos.toNat) := by decide
theorem test_witness_TickReadsOnlyDigitEntries :
    (∀ d (h : d < 10), digitPattern (.digitsOnly defaultDigits) d h = digitPattern State.reset.cfg.rom d h) ∧
    State.Legal { State.reset with cfg := { State.reset.cfg with rom := .digitsOnly defaultDigits } } ∧
    (after (exec (.advance 1234 4) State.reset)).isSome := by decide
theorem test_witness_DecoderOutputFollowsLatches :
    State.reset.addr = none ∧ (lined .activeLow ticked1).cfg.enableLine = .present ∧
      (lined .activeLow ticked1).en = none ∧ ticked1.addr = some 0 ∧ ticked1.cfg.enableLine = .absent ∧
      State.en { other with en := some 0 } = some 0 ∧ other.addr = some 7 ∧
      other.cfg.enableLine = .present := by decide
theorem test_witness_SteadyWindow :
    other.Legal ∧ 1 ≤ 1 ∧ 1 ≤ 8 ∧ ValuesFit other.cfg [65535, 0] ∧ other.InWindow 1 ∧
      State.reset.Legal ∧ ValuesFit State.reset.cfg [4294967295] ∧ State.reset.InWindow 8 := by decide
theorem test_witness_WindowShowsLowDigits :
    other.Legal ∧ 1 ≤ 1 ∧ 1 ≤ 8 ∧ 65535 < 2 ^ other.cfg.valueWidth.bits ∧ other.pos.toNat = wrapFloor 1 ∧
      State.reset.pos.toNat = wrapFloor 8 := by decide
theorem test_witness_StartupSweep :
    State.reset.Legal ∧
    (∀ c ∈ List.replicate 7 (1234, 4), c.1 < 2 ^ State.reset.cfg.valueWidth.bits ∧ 1 ≤ c.2 ∧ c.2 ≤ 8) ∧
    State.reset.pos.toNat + (List.replicate 7 (1234, 4)).length ≤ 7 ∧ State.reset.pos = 0 ∧
    (List.replicate 7 (1234, 4)).length = 7 := by decide
theorem test_witness_WindowCountsOnlyAtWrap :
    State.reset.Legal ∧ State.reset.pos ≠ 7 ∧ other.Legal ∧ other.pos = 7 ∧ 1 ≤ 1 ∧ 8 ≤ 8 ∧
      65535 < 2 ^ other.cfg.valueWidth.bits := by decide
theorem test_witness_CycleClosure :
    other.Legal ∧ 1 ≤ 3 ∧ 3 ≤ 8 ∧ ValuesFit other.cfg (List.replicate 8 5) ∧ other.InWindow 3 ∧
      (List.replicate 8 5).length = 8 := by decide
theorem test_witness_WindowIsServedFairly :
    other.Legal ∧ 1 ≤ 3 ∧ 3 ≤ 8 ∧ ValuesFit other.cfg [1, 2, 3] ∧ other.InWindow 3 ∧ [1, 2, 3].length = 3 ∧
      3 ≠ 1 := by decide
theorem test_witness_SelectBetweenTicksIsHarmless :
    ticked1.Legal ∧ 1 ≤ 1 ∧ 1 ≤ 8 ∧ 42 < 2 ^ ticked1.cfg.valueWidth.bits := by decide
theorem test_witness_InvHoldsAtReset : configDefect other.cfg = none := by decide

/-- The record of a first tick from reset has a shape the rules give. -/
theorem ticked1_shape : RecordShape defaultConfig
    (.command ⟨.ok, none⟩ [.addrWrite 0, .segWrite 0x3F, .segWrite 0x00]) := by
  exact .inr ⟨rfl, .inr (.inr ⟨0, 0, by decide, rfl⟩)⟩

theorem selected2_inv : Inv selected2 where
  legal := by decide
  latches_recorded := by decide
  bus_blank := by decide
  scan_at_start := by decide
  no_line_no_level := by decide
  shapes := by
    intro r hr
    have hr : r ∈ [.command ⟨.ok, none⟩ [.addrWrite 0, .segWrite 0x3F, .segWrite 0x00],
        .command ⟨.ok, none⟩ [.addrWrite 2]] := hr
    rcases List.mem_cons.mp hr with rfl | hr
    · exact ticked1_shape
    · rw [List.mem_singleton.mp hr]
      exact .inr ⟨rfl, .inl ⟨2, rfl⟩⟩

/-- A state with a tick and a SELECT behind it, and one more command to come. -/
theorem test_witness_StepKeepsInv : Inv { selected2 with pending := [.command 0x000004D20044] } ∧
    (after (step { selected2 with pending := [.command 0x000004D20044] })).isSome :=
  ⟨⟨selected2_inv.legal, selected2_inv.latches_recorded, selected2_inv.bus_blank,
    selected2_inv.scan_at_start, selected2_inv.no_line_no_level, selected2_inv.shapes⟩, by decide⟩

/-- A tick, a reset and a SELECT 2: the bus is unknown again when the address lines move (10_state.md R34,
70_reset_and_hazards.md R185). -/
def resetThenSelected2 : State :=
  { State.reset with
    addr := some 2,
    log := ticked1.log ++ [.reset, .command ⟨.ok, none⟩ [.addrWrite 2]] }

theorem resetThenSelected2_inv : Inv resetThenSelected2 where
  legal := by decide
  latches_recorded := by decide
  bus_blank := by decide
  scan_at_start := by decide
  no_line_no_level := by decide
  shapes := by
    intro r hr
    have hr : r ∈ [.command ⟨.ok, none⟩ [.addrWrite 0, .segWrite 0x3F, .segWrite 0x00], .reset,
        .command ⟨.ok, none⟩ [.addrWrite 2]] := hr
    rcases List.mem_cons.mp hr with rfl | hr
    · exact ticked1_shape
    · rcases List.mem_cons.mp hr with rfl | hr
      · trivial
      · rw [List.mem_singleton.mp hr]
        exact .inr ⟨rfl, .inl ⟨2, rfl⟩⟩

/-- The level of the bus at the SELECT is the blank without the reset and unknown with it. -/
theorem test_reset_forgets_the_bus :
    (portsDuring ticked1.log []).seg = some 0x00 ∧ (portsDuring (ticked1.log ++ [.reset]) []).seg = none := by
  decide

theorem test_witness_AddressMovesUnderBlank : Inv selected2 ∧ Inv resetThenSelected2 ∧
    selected2.log = ticked1.log ++ .command ⟨.ok, none⟩ ([] ++ .addrWrite 2 :: []) :: [] ∧
    resetThenSelected2.log =
      (ticked1.log ++ [.reset]) ++ .command ⟨.ok, none⟩ ([] ++ .addrWrite 2 :: []) :: [] :=
  ⟨selected2_inv, resetThenSelected2_inv, rfl, rfl⟩

theorem test_witness_LastSegWriteBeforeAddrWriteIsBlank : Inv selected2 ∧
    observedEvents selected2.log =
      [.addrWrite 0, .segWrite 0x3F, .segWrite 0x00] ++ .addrWrite 2 :: [] :=
  ⟨selected2_inv, rfl⟩

/-- A state with an enable line after ENABLE 1. -/
def enabled : State :=
  { lined .activeLow State.reset with en := some 0, log := [.command ⟨.ok, none⟩ [.enWrite 0]] }

theorem enabled_inv : Inv enabled where
  legal := by decide
  latches_recorded := by decide
  bus_blank := by decide
  scan_at_start := by decide
  no_line_no_level := by decide
  shapes := by
    intro r hr
    rw [List.mem_singleton.mp hr]
    exact .inr ⟨rfl, .inr (.inl ⟨rfl, true, rfl⟩)⟩

theorem test_witness_KnownLevelWasDriven :
    (Inv selected2 ∧ selected2.ports.Holds (.addrWrite 2) ∧ selected2.ports.Holds (.segWrite 0x00)) ∧
      (Inv resetThenSelected2 ∧ resetThenSelected2.ports.Holds (.addrWrite 2)) ∧
      Inv enabled ∧ enabled.ports.Holds (.enWrite 0) :=
  ⟨⟨selected2_inv, rfl, rfl⟩, ⟨resetThenSelected2_inv, rfl⟩, enabled_inv, rfl⟩

end Sys2Proof.Tests
end

section
/-!
PROOF. What each command but ADVANCE answers, by the case of its operand, and that no such command and no
illegal word reads or writes the scan position (10_state.md R21).
-/

namespace Sys2Proof.Machine

/-! ### What a command answers -/

theorem performCommand_of_ok {w : CommandWord} {i : Instr} (h : decode w = .ok i) :
    performCommand w = exec i := by
  funext s
  simp [performCommand, h]

theorem performCommand_of_error {w : CommandWord} {e : DecodeError} (h : decode w = .error e) :
    performCommand w = execIllegal := by
  funext s
  simp [performCommand, h]

theorem execEncode_of_symbol {sym : Nat} {s : State} (hl : s.Legal) (h : sym < s.cfg.rom.size) :
    execEncode sym s = .next (s.finish .ok (some (romRead s.cfg.rom sym h)) []) := by
  simp [execEncode, guarded_of_legal hl, h]

theorem execEncode_of_no_symbol {sym : Nat} {s : State} (hl : s.Legal) (h : s.cfg.rom.size ≤ sym) :
    execEncode sym s = .next (s.fail .invalidSymbol) := by
  simp [execEncode, guarded_of_legal hl, Nat.not_lt.mpr h]

theorem execSelect_of_position {p : Nat} {s : State} (hl : s.Legal) (h : p ≤ 7) :
    execSelect p s = .next (s.finish .ok none [.addrWrite (BitVec.ofNat 3 p)]) := by
  simp [execSelect, guarded_of_legal hl, selectionInRange_of_legal hl, h]

theorem execSelect_of_no_position {p : Nat} {s : State} (hl : s.Legal) (h : 8 ≤ p) :
    execSelect p s = .next (s.fail .invalidSelection) := by
  simp [execSelect, guarded_of_legal hl, selectionInRange_of_legal hl, Nat.not_le.mpr h]

theorem execEnable_of_absent {a : Bool} {s : State} (hl : s.Legal) (h : s.cfg.enableLine = .absent) :
    execEnable a s = .next (s.fail .illegalCommand) := by
  simp [execEnable, guarded_of_legal hl, h]

theorem execEnable_of_present {a : Bool} {s : State} (hl : s.Legal) (h : s.cfg.enableLine = .present) :
    execEnable a s = .next (s.finish .ok none [.enWrite (enLevel s.cfg.enPolarity a)]) := by
  simp [execEnable, guarded_of_legal hl, h]

theorem execIllegal_of_legal {s : State} (hl : s.Legal) :
    execIllegal s = .next (s.fail .illegalCommand) := guarded_of_legal hl _

/-! ### The same state at another scan position -/

/-- The state with its scan position replaced. -/
abbrev State.withPos (s : State) (q : Position) : State := { s with pos := q }

theorem State.latch_withPos (s : State) (q : Position) (e : Event) :
    (s.withPos q).latch e = (s.latch e).withPos q := by
  cases e <;> rfl

theorem State.drive_withPos (s : State) (q : Position) (es : List Event) :
    (s.withPos q).drive es = (s.drive es).withPos q := by
  induction es generalizing s with
  | nil => rfl
  | cons e es ih => rw [State.drive_cons, State.drive_cons, State.latch_withPos, ih]

theorem State.finish_withPos (s : State) (q : Position) (st : Status) (pat : Option Byte)
    (es : List Event) : (s.withPos q).finish st pat es = (s.finish st pat es).withPos q := by
  simp [State.finish, State.drive_withPos]

/-! ### Commands that leave the scan alone -/

/-- A meaning neither writes the scan position nor depends on it: from any other position it answers the
same, and the position stays that one. -/
def IgnoresScan (meaning : State → Host.Outcome State Fault Refusal) : Prop :=
  ∀ (s t : State) (q : Position), meaning s = .next t →
    t.pos = s.pos ∧ meaning (s.withPos q) = .next (t.withPos q)

/-- A command that ends the same way wherever the scan stands leaves the scan alone. -/
theorem finish_ignoresScan {meaning : State → Host.Outcome State Fault Refusal} {s : State} {q : Position}
    {st : Status} {pat : Option Byte} {es : List Event}
    (h : meaning (s.withPos q) = .next ((s.withPos q).finish st pat es)) :
    (s.finish st pat es).pos = s.pos ∧
      meaning (s.withPos q) = .next ((s.finish st pat es).withPos q) :=
  ⟨s.finish_pos st pat es, by rw [h, s.finish_withPos]⟩

theorem execEncode_ignoresScan (sym : Nat) : IgnoresScan (execEncode sym) := by
  intro s t q h
  obtain ⟨hl, ⟨hs, rfl⟩ | ⟨hs, rfl⟩⟩ := execEncode_next h
  · exact finish_ignoresScan (execEncode_of_symbol (s := s.withPos q) hl hs)
  · exact finish_ignoresScan (execEncode_of_no_symbol (s := s.withPos q) hl hs)

theorem execSelect_ignoresScan (p : Nat) : IgnoresScan (execSelect p) := by
  intro s t q h
  obtain ⟨hl, ⟨hp, rfl⟩ | ⟨hp, rfl⟩⟩ := execSelect_next h
  · exact finish_ignoresScan (execSelect_of_position (s := s.withPos q) hl hp)
  · exact finish_ignoresScan (execSelect_of_no_position (s := s.withPos q) hl hp)

theorem execEnable_ignoresScan (a : Bool) : IgnoresScan (execEnable a) := by
  intro s t q h
  obtain ⟨hl, ⟨he, rfl⟩ | ⟨he, rfl⟩⟩ := execEnable_next h
  · exact finish_ignoresScan (execEnable_of_absent (s := s.withPos q) hl he)
  · exact finish_ignoresScan (execEnable_of_present (s := s.withPos q) hl he)

theorem execIllegal_ignoresScan : IgnoresScan execIllegal := by
  intro s t q h
  obtain ⟨hl, rfl⟩ := execIllegal_next h
  exact finish_ignoresScan (execIllegal_of_legal (s := s.withPos q) hl)

/-- Every word but that of an ADVANCE, illegal words included, leaves the scan alone. -/
theorem performCommand_ignoresScan {w : CommandWord} (hw : ∀ v n, decode w ≠ .ok (.advance v n)) :
    IgnoresScan (performCommand w) := by
  match hd : decode w with
  | .error e => exact performCommand_of_error hd ▸ execIllegal_ignoresScan
  | .ok (.encode sym) => exact performCommand_of_ok hd ▸ execEncode_ignoresScan sym
  | .ok (.select p) => exact performCommand_of_ok hd ▸ execSelect_ignoresScan p
  | .ok (.enable a) => exact performCommand_of_ok hd ▸ execEnable_ignoresScan a
  | .ok (.advance v n) => exact absurd hd (hw v n)

/-- Settles O32: the scan position is left alone by every word but ADVANCE's, its three bits hold 0..7,
and it is 0 after reset (10_state.md R21). -/
theorem onlyAdvanceTouchesScan : Obligations.OnlyAdvanceTouchesScan :=
  ⟨fun s t q _ hw h => performCommand_ignoresScan hw s t q h, fun s => Nat.le_of_lt_succ s.pos.isLt,
    fun _ => rfl⟩

end Sys2Proof.Machine
end

section
/-!
PROOF. That no command and no step writes the configuration, in which the segment ROM stands
(20_memory.md R42, 10_state.md R29).
-/

namespace Sys2Proof.Machine

/-- However a command ends, by an error, by port writes or by a tick, the configuration is untouched. -/
theorem exec_cfg {i : Instr} {s t : State} (h : exec i s = .next t) : t.cfg = s.cfg := by
  cases i with
  | encode sym =>
    obtain ⟨-, ⟨_, rfl⟩ | ⟨-, rfl⟩⟩ := execEncode_next h
    · exact s.finish_cfg _ _ _
    · exact s.fail_cfg _
  | select p =>
    obtain ⟨-, ⟨-, rfl⟩ | ⟨-, rfl⟩⟩ := execSelect_next h
    · exact s.finish_cfg _ _ _
    · exact s.fail_cfg _
  | enable a =>
    obtain ⟨-, ⟨-, rfl⟩ | ⟨-, rfl⟩⟩ := execEnable_next h
    · exact s.fail_cfg _
    · exact s.finish_cfg _ _ _
  | advance v w =>
    obtain ⟨-, ⟨-, rfl⟩ | ⟨-, -, rfl⟩ | ⟨-, -, rfl⟩⟩ := execAdvance_next h
    · exact s.fail_cfg _
    · exact s.fail_cfg _
    · exact ticked_cfg v w s

/-- The reset input, an illegal word and an idle step leave the configuration alone too. -/
theorem step_cfg {s t : State} (h : step s = .next t) : t.cfg = s.cfg := by
  obtain ⟨-, -, rfl⟩ | ⟨_, -, -, rfl⟩ | ⟨_, rest, _, -, -, hi⟩ | ⟨_, _, _, -, -, -, rfl⟩ :=
    step_next h
  case inl => rfl
  case inr.inl => exact State.assertReset_cfg _
  case inr.inr.inl => exact exec_cfg (s := { s with pending := rest }) hi
  case inr.inr.inr => exact State.fail_cfg _ _

/-- Settles O33: the ROM is part of the configuration, and no step writes the configuration. -/
theorem romNeverChanges : Obligations.RomNeverChanges :=
  fun _ _ h => ⟨congrArg Config.rom (step_cfg h), step_cfg h⟩

end Sys2Proof.Machine
end

section
/-!
PROOF. What the opcodes of SELECT and ENABLE decode to, said of the word's fields as numbers
(30_encoding.md R60, R63, R65).
-/

namespace Sys2Proof.Machine

/-! ### The decoder's fields and the word as a number -/

theorem opField_eq_iff (w : CommandWord) (op : BitVec 4) : opField w = op ↔ wordOP w = op.toNat := by
  rw [← BitVec.toNat_inj, opField_toNat]
  rfl

theorem windowField_eq_zero_iff (w : CommandWord) : windowField w = 0#4 ↔ wordW w = 0 := by
  rw [← BitVec.toNat_inj, windowField_toNat]
  rfl

theorem valueField_eq_zero_iff (w : CommandWord) : valueField w = 0#32 ↔ wordV w = 0 := by
  rw [← BitVec.toNat_inj, valueField_toNat]
  rfl

theorem byteField_toNat_eq_wordK (w : CommandWord) : (byteField w).toNat = wordK w :=
  byteField_toNat w

/-! ### `K` as the operand of ENABLE -/

/-- The bits above bit 0 are zero exactly in the bytes 0 and 1. -/
theorem upperBits_eq_zero_iff (k : Byte) : k.extractLsb' 1 7 = 0#7 ↔ k.toNat < 2 := by
  have := k.isLt
  rw [← BitVec.toNat_inj, BitVec.extractLsb'_toNat, Nat.shiftRight_eq_div_pow,
    BitVec.toNat_ofNat]
  omega

theorem getElem_zero_of_lt_two {k : Byte} (h : k.toNat < 2) : k[0] = (k.toNat == 1) := by
  rw [BitVec.getElem_eq_testBit_toNat, Nat.testBit_zero, Nat.mod_eq_of_lt h]
  rfl

/-! ### The two opcodes -/

/-- A word with SELECT's opcode is a SELECT where `W` and `V` are zero, and illegal where not. -/
theorem decode_of_wordOP_two {w : CommandWord} (h : wordOP w = 2) :
    decode w = if wordW w = 0 ∧ wordV w = 0 then .ok (.select (wordK w)) else .error (.reservedField 2) := by
  have hop : opField w = 2#4 := (opField_eq_iff w _).mpr h
  simp [decode, hop, windowField_eq_zero_iff, valueField_eq_zero_iff, byteField_toNat_eq_wordK]

/-- A word with ENABLE's opcode is an ENABLE where `W`, `V` and the upper bits of `K` are zero, and
illegal where not. -/
theorem decode_of_wordOP_three {w : CommandWord} (h : wordOP w = 3) :
    decode w = if wordW w = 0 ∧ wordV w = 0 ∧ wordK w < 2 then .ok (.enable (wordK w == 1))
      else .error (.reservedField 3) := by
  have hop : opField w = 3#4 := (opField_eq_iff w _).mpr h
  by_cases hk : wordK w < 2
  · have hbit := getElem_zero_of_lt_two (byteField_toNat_eq_wordK w ▸ hk)
    simp [decode, hop, windowField_eq_zero_iff, valueField_eq_zero_iff, upperBits_eq_zero_iff, hbit,
      byteField_toNat_eq_wordK]
  · simp [decode, hop, upperBits_eq_zero_iff, byteField_toNat_eq_wordK, hk]

end Sys2Proof.Machine
end

section
/-!
PROOF. The PositionDecoder's commands (42_position_decoder.md): SELECT and ENABLE as words, SELECT out of
range, the address lines, and that position and enable are independent.
-/

namespace Sys2Proof.Machine

/-! ### How a command ends -/

theorem State.finish_addrWrite (s : State) (st : Status) (pat : Option Byte) (p : Position) :
    s.finish st pat [.addrWrite p] = { s.saw st pat [.addrWrite p] with addr := some p } := rfl

theorem State.finish_enWrite (s : State) (st : Status) (pat : Option Byte) (l : Level) :
    s.finish st pat [.enWrite l] = { s.saw st pat [.enWrite l] with en := some l } := rfl

theorem State.fail_eq_saw (s : State) (st : Status) : s.fail st = s.saw st none [] := rfl

/-! ### A step with a command word in front -/

theorem step_of_command {s : State} {w : CommandWord} {rest : List Request}
    (h : s.pending = .command w :: rest) : step s = performCommand w { s with pending := rest } := by
  simp [step, nextRequest, perform, h]

theorem step_of_decode_ok {s : State} {w : CommandWord} {rest : List Request} {i : Instr}
    (hp : s.pending = .command w :: rest) (hd : decode w = .ok i) :
    step s = exec i { s with pending := rest } := by
  rw [step_of_command hp, performCommand_of_ok hd]

theorem step_of_decode_error {s : State} {w : CommandWord} {rest : List Request} {e : DecodeError}
    (hl : s.Legal) (hp : s.pending = .command w :: rest) (hd : decode w = .error e) :
    step s = .next (State.saw { s with pending := rest } .illegalCommand none []) := by
  rw [step_of_command hp, performCommand_of_error hd, execIllegal_of_legal (s := { s with pending := rest }) hl,
    State.fail_eq_saw]

/-! ### SELECT -/

/-- What a SELECT in range does, field by field. -/
theorem exec_select_of_position {s : State} {p : Nat} (hl : s.Legal) (hp : p ≤ 7) :
    exec (.select p) s = .next { s.saw .ok none [.addrWrite (BitVec.ofNat 3 p)] with
      addr := some (BitVec.ofNat 3 p) } :=
  (execSelect_of_position hl hp).trans (congrArg _ (State.finish_addrWrite ..))

/-- Settles O21: a position past the last one is answered by `State.fail`, which adds to the record only. -/
theorem selectOutOfRangeChangesNothing : Obligations.SelectOutOfRangeChangesNothing :=
  fun s _ hl hp => (execSelect_of_no_position hl hp).trans (congrArg _ (s.fail_eq_saw _))

theorem encode_select_toNat {p : Nat} (hp : p < 2 ^ 8) :
    (encode (.select p)).toNat = 0x000000000002 + p * 0x100 := by
  have hword : encode (.select p) = packWord 0 (BitVec.ofNat 8 p) 0 2#4 := rfl
  rw [hword, packWord_toNat, BitVec.toNat_ofNat, Nat.mod_eq_of_lt hp]
  change 0 * 2 ^ 16 + p * 2 ^ 8 + 0 * 2 ^ 4 + 2 = 0x000000000002 + p * 0x100
  omega

/-- Settles O22: the word decodes to a SELECT or is illegal by its reserved fields, and the range of the
position decides between the two statuses of SELECT. -/
theorem selectWordStep : Obligations.SelectWordStep := by
  refine ⟨fun p => encode_select_toNat, fun s w rest hl hp hop =>
    ⟨fun hW hV hK => ?_, fun hW hV hK => ?_, fun hreserved => ?_⟩⟩
  · rw [step_of_decode_ok hp ((decode_of_wordOP_two hop).trans (if_pos ⟨hW, hV⟩))]
    exact exec_select_of_position (s := { s with pending := rest }) hl hK
  · rw [step_of_decode_ok hp ((decode_of_wordOP_two hop).trans (if_pos ⟨hW, hV⟩))]
    exact selectOutOfRangeChangesNothing { s with pending := rest } _ hl hK
  · exact step_of_decode_error hl hp
      ((decode_of_wordOP_two hop).trans (if_neg (not_and_or.mpr hreserved)))

/-! ### The address lines -/

/-- Cutting a number to three bits keeps bits 0 to 2. -/
theorem addressLine_ofNat (p : Nat) {i : Nat} (hi : i < 3) :
    addressLine (BitVec.ofNat 3 p) i = p.testBit i := by
  rw [addressLine, BitVec.getLsbD_ofNat, decide_eq_true hi, Bool.true_and]

/-- Settles O23: the address latched and emitted is the position cut to three bits. -/
theorem addressLinesReproducePosition : Obligations.AddressLinesReproducePosition := by
  intro s p hl hp
  refine ⟨_, BitVec.ofNat 3 p, exec_select_of_position hl hp, rfl, ?_, fun i hi => addressLine_ofNat p hi⟩
  simp [State.saw, Record.events]

/-! ### ENABLE -/

/-- What an ENABLE does where there is a line, field by field. -/
theorem exec_enable_of_present {s : State} {a : Bool} (hl : s.Legal) (he : s.cfg.enableLine = .present) :
    exec (.enable a) s = .next { s.saw .ok none [.enWrite (enLevel s.cfg.enPolarity a)] with
      en := some (enLevel s.cfg.enPolarity a) } :=
  (execEnable_of_present hl he).trans (congrArg _ (State.finish_enWrite ..))

theorem exec_enable_of_absent {s : State} {a : Bool} (hl : s.Legal) (he : s.cfg.enableLine = .absent) :
    exec (.enable a) s = .next (s.saw .illegalCommand none []) :=
  (execEnable_of_absent hl he).trans (congrArg _ (s.fail_eq_saw _))

/-- Settles O26: a word with a reserved field set is illegal in the decoder, and a well-formed one where
there is no line is answered with the same status by ENABLE itself. -/
theorem enableWordStep : Obligations.EnableWordStep := by
  refine ⟨by decide, by decide, fun s w rest hl hp hop =>
    ⟨fun hW hV hK hline => ?_, fun hbad => ?_⟩⟩
  · rw [step_of_decode_ok hp ((decode_of_wordOP_three hop).trans (if_pos ⟨hW, hV, hK⟩))]
    exact exec_enable_of_present (s := { s with pending := rest }) hl hline
  · by_cases hfields : wordW w = 0 ∧ wordV w = 0 ∧ wordK w < 2
    · obtain ⟨hW, hV, hK⟩ := hfields
      have hline : s.cfg.enableLine = .absent := by
        simpa only [hW, hV, Nat.not_le.mpr hK, ne_eq, not_true_eq_false, false_or] using hbad
      rw [step_of_decode_ok hp ((decode_of_wordOP_three hop).trans (if_pos ⟨hW, hV, hK⟩))]
      exact exec_enable_of_absent (s := { s with pending := rest }) hl hline
    · exact step_of_decode_error hl hp ((decode_of_wordOP_three hop).trans (if_neg hfields))

/-! ### Position and enable are independent -/

theorem exec_select_en {p : Nat} {s t : State} (h : exec (.select p) s = .next t) : t.en = s.en := by
  obtain ⟨-, ⟨-, rfl⟩ | ⟨-, rfl⟩⟩ := execSelect_next h
  · rw [State.finish_addrWrite, State.saw]
  · exact s.fail_en _

theorem exec_advance_en {v w : Nat} {s t : State} (h : exec (.advance v w) s = .next t) :
    t.en = s.en := by
  obtain ⟨-, ⟨-, rfl⟩ | ⟨-, -, rfl⟩ | ⟨-, -, rfl⟩⟩ := execAdvance_next h
  · exact s.fail_en _
  · exact s.fail_en _
  · exact ticked_en v w s

theorem exec_enable_addr {a : Bool} {s t : State} (h : exec (.enable a) s = .next t) :
    t.addr = s.addr := by
  obtain ⟨-, ⟨-, rfl⟩ | ⟨-, rfl⟩⟩ := execEnable_next h
  · exact s.fail_addr _
  · rw [State.finish_enWrite, State.saw]

/-- Settles O31, command by command. -/
theorem positionAndEnableIndependent : Obligations.PositionAndEnableIndependent :=
  fun _ _ => ⟨fun _ => exec_select_en, fun _ _ => exec_advance_en, fun _ => exec_enable_addr⟩

end Sys2Proof.Machine
end

section
/-!
PROOF. The ScanController's ticks (43_scan_controller.md): what a tick shows, and at which position.
-/

namespace Sys2Proof.Machine

@[simp] theorem shown_append (l₁ l₂ : List Record) : shown (l₁ ++ l₂) = shown l₁ ++ shown l₂ :=
  List.filterMap_append

/-- The byte a tick drives is the one of the decimal digit `value / 10^place % 10`: `pow10` and `digitAt`
are that arithmetic (43_scan_controller.md R120, R121). -/
theorem digitPinByte_eq_digitByte (cfg : Config) (value place : Nat) :
    digitPinByte cfg value place = digitByte cfg value place := rfl

theorem placeOf_of_legal {cfg : Config} (h : configDefect cfg = none) (p : Nat) :
    placeOf cfg.maxPos p = 7 - p := by
  rw [placeOf, maxPos_of_legal h]

/-- Of its three port writes a tick shows the data byte, at the position it drives
(43_scan_controller.md R134). -/
theorem shown_tickEvents (cfg : Config) (response : Response) (p : Position) (value : Nat) :
    shown [.command response (tickEvents cfg p value)] =
      [(p, digitPinByte cfg value (placeOf cfg.maxPos p.toNat))] := rfl

/-- A tick adds to what was shown the digit of place `7 - pos` at its position, and nothing else. -/
theorem shown_ticked {s : State} (hl : s.Legal) (v w : Nat) :
    shown (ticked v w s).log = shown s.log ++ [(s.pos, digitByte s.cfg v (7 - s.pos.toNat))] := by
  rw [ticked_log, shown_append, shown_tickEvents, placeOf_of_legal hl, digitPinByte_eq_digitByte]

/-- Settles O41: the tick shows the digit of place `7 - pos`, which is place 7 at position 0 and place 0
at position 7. -/
theorem positionShowsPlace : Obligations.PositionShowsPlace := by
  intro s v w hl hw1 hw8 hv
  refine ⟨ticked v w s, execAdvance_of_valid hl ⟨hw1, hw8⟩ hv, shown_ticked hl v w, ?_, ?_⟩
  · intro hpos
    rw [shown_ticked hl, hpos]
    rfl
  · intro hpos
    rw [shown_ticked hl, hpos]
    rfl

end Sys2Proof.Machine
end

section
/-!
PROOF. The PolarityAdapter's segment transform (44_polarity.md).
-/

namespace Sys2Proof.Machine

@[simp] theorem applyPolarity_activeHigh (p : Byte) : applyPolarity .activeHigh p = p := rfl

@[simp] theorem applyPolarity_activeLow (p : Byte) : applyPolarity .activeLow p = ~~~p := rfl

/-- Settles O45: under ActiveLow the byte is the bitwise complement, which is the exclusive or with the
byte of all ones, and as a number the distance from 255. -/
theorem segmentTransform : Obligations.SegmentTransform := by
  refine fun p => ⟨applyPolarity_activeHigh p, ?_, ?_⟩
  · exact (applyPolarity_activeLow p).trans (BitVec.xor_allOnes (x := p)).symm
  · rw [applyPolarity_activeLow, BitVec.toNat_not]

end Sys2Proof.Machine
end

section
/-!
PROOF. The decoder and the encoder as functions of the word's four numbers (30_encoding.md R60 to R65),
that they undo each other, and the opcode table's masks.
-/

namespace Sys2Proof.Machine

/-! ### Decoding what the encoder makes -/

/-- Settles O4, command by command: each field of the encoded word is what was put in, and an operand
that fits its field is not cut. -/
theorem decodeOfEncode : Obligations.DecodeOfEncode := by
  intro i hi
  cases i with
  | encode sym =>
    have hsym : sym < 256 := by simpa [Instr.wellFormed] using hi
    simp [decode, encode, opcodeOf, Nat.mod_eq_of_lt hsym]
  | select p =>
    have hp : p < 256 := by simpa [Instr.wellFormed] using hi
    simp [decode, encode, opcodeOf, Nat.mod_eq_of_lt hp]
  | enable a => cases a <;> rfl
  | advance v n =>
    obtain ⟨hv, hn⟩ : v < 4294967296 ∧ n < 16 := by simpa [Instr.wellFormed] using hi
    simp [decode, encode, opcodeOf, Nat.mod_eq_of_lt hv, Nat.mod_eq_of_lt hn]

/-! ### The other opcodes, as numbers -/

/-- A word with ENCODE's opcode is an ENCODE where `W` and `V` are zero, and illegal where not. -/
theorem decode_of_wordOP_one {w : CommandWord} (h : wordOP w = 1) :
    decode w = if wordW w = 0 ∧ wordV w = 0 then .ok (.encode (wordK w))
      else .error (.reservedField 1) := by
  have hop : opField w = 1#4 := (opField_eq_iff w _).mpr h
  simp [decode, hop, windowField_eq_zero_iff, valueField_eq_zero_iff, byteField_toNat_eq_wordK]

theorem byteField_eq_zero_iff (w : CommandWord) : byteField w = 0#8 ↔ wordK w = 0 := by
  rw [← BitVec.toNat_inj, byteField_toNat_eq_wordK]
  rfl

/-- A word with ADVANCE's opcode is an ADVANCE where `K` is zero, and illegal where not. -/
theorem decode_of_wordOP_four {w : CommandWord} (h : wordOP w = 4) :
    decode w = if wordK w = 0 then .ok (.advance (wordV w) (wordW w)) else .error (.reservedField 4) := by
  have hop : opField w = 4#4 := (opField_eq_iff w _).mpr h
  have hv : (valueField w).toNat = wordV w := valueField_toNat w
  have hn : (windowField w).toNat = wordW w := windowField_toNat w
  simp [decode, hop, byteField_eq_zero_iff, hv, hn]

theorem decode_of_reserved_opcode {w : CommandWord} (h : wordOP w = 0 ∨ 5 ≤ wordOP w) :
    decode w = .error (.reservedOpcode (wordOP w)) := by
  have hop : (opField w).toNat = wordOP w := opField_toNat w
  have hne : wordOP w ≠ 1 ∧ wordOP w ≠ 2 ∧ wordOP w ≠ 3 ∧ wordOP w ≠ 4 := by omega
  simp [decode, opField_eq_iff, hne, hop]

/-- The opcode of a word is reserved or a command's. -/
theorem wordOP_cases (w : CommandWord) :
    (wordOP w = 0 ∨ 5 ≤ wordOP w) ∨ wordOP w = 1 ∨ wordOP w = 2 ∨ wordOP w = 3 ∨ wordOP w = 4 := by
  omega

/-- Settles O2: one clause for each opcode, and the words the first four leave over are illegal. -/
theorem decodeFollowsFields : Obligations.DecodeFollowsFields := by
  refine fun w => ⟨fun h hW hV => ?_, fun h hW hV => ?_, fun h hW hV hK => ?_, fun h hK => ?_,
    fun hES hN hA => ?_⟩
  · exact (decode_of_wordOP_one h).trans (if_pos ⟨hW, hV⟩)
  · exact (decode_of_wordOP_two h).trans (if_pos ⟨hW, hV⟩)
  · exact (decode_of_wordOP_three h).trans (if_pos ⟨hW, hV, hK⟩)
  · exact (decode_of_wordOP_four h).trans (if_pos hK)
  · obtain h | h | h | h | h := wordOP_cases w
    · exact ⟨_, decode_of_reserved_opcode h⟩
    · exact ⟨_, (decode_of_wordOP_one h).trans (if_neg fun hz => hES ⟨.inl h, hz⟩)⟩
    · exact ⟨_, (decode_of_wordOP_two h).trans (if_neg fun hz => hES ⟨.inr h, hz⟩)⟩
    · exact ⟨_, (decode_of_wordOP_three h).trans (if_neg fun hz => hN ⟨h, hz⟩)⟩
    · exact ⟨_, (decode_of_wordOP_four h).trans (if_neg fun hz => hA ⟨h, hz⟩)⟩

/-- Settles O1: the decoder evaluated on the seven words. -/
theorem specWordsDecode : Obligations.SpecWordsDecode :=
  ⟨rfl, rfl, rfl, rfl, rfl, rfl, rfl⟩

/-! ### The encoder's words -/

theorem encode_encode_toNat {k : Nat} (hk : k < 2 ^ 8) :
    (encode (.encode k)).toNat = 0x000000000001 + k * 0x100 := by
  have hword : encode (.encode k) = packWord 0 (BitVec.ofNat 8 k) 0 1#4 := rfl
  rw [hword, packWord_toNat, BitVec.toNat_ofNat, Nat.mod_eq_of_lt hk]
  change 0 * 2 ^ 16 + k * 2 ^ 8 + 0 * 2 ^ 4 + 1 = 0x000000000001 + k * 0x100
  omega

theorem encode_enable_toNat (a : Bool) :
    (encode (.enable a)).toNat = 0x000000000003 + a.toNat * 0x100 := by
  cases a <;> rfl

theorem encode_advance_toNat {v n : Nat} (hv : v < 2 ^ 32) (hn : n < 2 ^ 4) :
    (encode (.advance v n)).toNat = v * 0x10000 + n * 0x10 + 0x4 := by
  have hword : encode (.advance v n) = packWord (BitVec.ofNat 32 v) 0 (BitVec.ofNat 4 n) 4#4 := rfl
  rw [hword, packWord_toNat, BitVec.toNat_ofNat, BitVec.toNat_ofNat, Nat.mod_eq_of_lt hv,
    Nat.mod_eq_of_lt hn]
  change v * 2 ^ 16 + 0 * 2 ^ 8 + n * 2 ^ 4 + 4 = v * 0x10000 + n * 0x10 + 0x4
  omega

/-- Settles O3, a formula for each command. -/
theorem encoderIsTheFormula : Obligations.EncoderIsTheFormula :=
  ⟨fun _ => encode_encode_toNat, fun _ => encode_select_toNat, encode_enable_toNat,
    fun _ _ => encode_advance_toNat⟩

/-! ### What a legal word is -/

/-- The fields of a word are those of a command: its opcode, its operands, and zero elsewhere
(30_encoding.md R61, R63). -/
def FieldsAre (w : CommandWord) : Instr → Prop
  | .encode sym => wordOP w = 1 ∧ (wordW w = 0 ∧ wordV w = 0) ∧ wordK w = sym
  | .select p => wordOP w = 2 ∧ (wordW w = 0 ∧ wordV w = 0) ∧ wordK w = p
  | .enable a => wordOP w = 3 ∧ (wordW w = 0 ∧ wordV w = 0 ∧ wordK w < 2) ∧ (wordK w == 1) = a
  | .advance v n => wordOP w = 4 ∧ wordK w = 0 ∧ wordV w = v ∧ wordW w = n

/-- A word decodes to the command whose fields it has, and to no other. -/
theorem decode_ok_iff {w : CommandWord} {i : Instr} : decode w = .ok i ↔ FieldsAre w i := by
  obtain hop | hop | hop | hop | hop := wordOP_cases w
  · rw [decode_of_reserved_opcode hop]
    cases i <;> simp [FieldsAre] <;> omega
  · rw [decode_of_wordOP_one hop, ite_eq_iff]
    cases i <;> simp [FieldsAre, hop]
  · rw [decode_of_wordOP_two hop, ite_eq_iff]
    cases i <;> simp [FieldsAre, hop]
  · rw [decode_of_wordOP_three hop, ite_eq_iff]
    cases i <;> simp [FieldsAre, hop]
  · rw [decode_of_wordOP_four hop, ite_eq_iff]
    cases i <;> simp [FieldsAre, hop]

/-- A word as a number is its four numbers (30_encoding.md R60). -/
theorem word_toNat (w : CommandWord) :
    w.toNat = wordV w * 2 ^ 16 + wordK w * 2 ^ 8 + wordW w * 2 ^ 4 + wordOP w := by
  unfold wordV wordK wordW wordOP
  omega

theorem wordK_lt (w : CommandWord) : wordK w < 2 ^ 8 := Nat.mod_lt _ (by decide)

theorem wordW_lt (w : CommandWord) : wordW w < 2 ^ 4 := Nat.mod_lt _ (by decide)

theorem wordV_lt (w : CommandWord) : wordV w < 2 ^ 32 := by
  have := w.isLt
  unfold wordV
  omega

theorem toNat_beq_one {k : Nat} (hk : k < 2) : (k == 1).toNat = k := by
  obtain rfl | rfl : k = 0 ∨ k = 1 := by omega
  · rfl
  · rfl

/-- Settles O5: the fields of a word bound the operands, and the encoder's formula on them is the word. -/
theorem encodeOfDecode : Obligations.EncodeOfDecode := by
  intro w i h
  have hK := wordK_lt w
  have hW := wordW_lt w
  have hV := wordV_lt w
  have hw := word_toNat w
  cases i with
  | encode sym =>
    obtain ⟨hop, ⟨hW0, hV0⟩, rfl⟩ := decode_ok_iff.mp h
    refine ⟨decide_eq_true hK, BitVec.eq_of_toNat_eq ?_⟩
    rw [encode_encode_toNat hK]
    omega
  | select p =>
    obtain ⟨hop, ⟨hW0, hV0⟩, rfl⟩ := decode_ok_iff.mp h
    refine ⟨decide_eq_true hK, BitVec.eq_of_toNat_eq ?_⟩
    rw [encode_select_toNat hK]
    omega
  | enable a =>
    obtain ⟨hop, ⟨hW0, hV0, hK2⟩, rfl⟩ := decode_ok_iff.mp h
    refine ⟨rfl, BitVec.eq_of_toNat_eq ?_⟩
    rw [encode_enable_toNat, toNat_beq_one hK2]
    omega
  | advance v n =>
    obtain ⟨hop, hK0, rfl, rfl⟩ := decode_ok_iff.mp h
    refine ⟨Bool.and_eq_true_iff.mpr ⟨decide_eq_true hV, decide_eq_true hW⟩, BitVec.eq_of_toNat_eq ?_⟩
    rw [encode_advance_toNat hV hW]
    omega

/-! ### The opcode table's masks -/

theorem packWord_and (v v' : BitVec 32) (k k' : Byte) (n n' op op' : BitVec 4) :
    packWord v k n op &&& packWord v' k' n' op' =
      packWord (v &&& v') (k &&& k') (n &&& n') (op &&& op') := by
  change (v ++ k ++ n ++ op) &&& (v' ++ k' ++ n' ++ op') =
    (v &&& v') ++ (k &&& k') ++ (n &&& n') ++ (op &&& op')
  rw [BitVec.and_append, BitVec.and_append, BitVec.and_append]

theorem packWord_inj {v v' : BitVec 32} {k k' : Byte} {n n' op op' : BitVec 4} :
    packWord v k n op = packWord v' k' n' op' ↔ v = v' ∧ k = k' ∧ n = n' ∧ op = op' := by
  refine ⟨fun h => ⟨?_, ?_, ?_, ?_⟩, fun ⟨hv, hk, hn, hop⟩ => by rw [hv, hk, hn, hop]⟩
  · simpa using congrArg valueField h
  · simpa using congrArg byteField h
  · simpa using congrArg windowField h
  · simpa using congrArg opField h

/-- A mask selects a word by its fields. -/
theorem and_packWord_eq_iff (w : CommandWord) (v v' : BitVec 32) (k k' : Byte) (n n' op op' : BitVec 4) :
    w &&& packWord v k n op = packWord v' k' n' op' ↔
      valueField w &&& v = v' ∧ byteField w &&& k = k' ∧ windowField w &&& n = n' ∧
        opField w &&& op = op' := by
  conv_lhs => rw [← packWord_fields w, packWord_and, packWord_inj]

/-- The mask of ENCODE and SELECT keeps every field but `K`. -/
theorem and_mask_of_byte_eq_iff (w : CommandWord) (op : BitVec 4) :
    w &&& packWord (BitVec.allOnes 32) 0 (BitVec.allOnes 4) (BitVec.allOnes 4) = packWord 0 0 0 op ↔
      wordOP w = op.toNat ∧ wordW w = 0 ∧ wordV w = 0 := by
  simp only [and_packWord_eq_iff, BitVec.and_allOnes, BitVec.ofNat_eq_ofNat, BitVec.and_zero, true_and,
    valueField_eq_zero_iff, windowField_eq_zero_iff, opField_eq_iff]
  tauto

theorem byte_and_FE_eq_zero_iff (k : Byte) : k &&& 0xFE#8 = 0#8 ↔ k.toNat < 2 := by
  rw [← upperBits_eq_zero_iff]
  revert k
  decide

/-- The mask of ENABLE keeps every bit but bit 0 of `K`. -/
theorem and_mask_of_enable_eq_iff (w : CommandWord) :
    w &&& 0xFFFFFFFFFEFF#48 = 0x000000000003#48 ↔
      wordOP w = 3 ∧ wordW w = 0 ∧ wordV w = 0 ∧ wordK w < 2 := by
  have hmask : 0xFFFFFFFFFEFF#48 =
    packWord (BitVec.allOnes 32) 0xFE#8 (BitVec.allOnes 4) (BitVec.allOnes 4) := rfl
  have hmatch : 0x000000000003#48 = packWord 0#32 0#8 0#4 3#4 := rfl
  rw [hmask, hmatch, and_packWord_eq_iff]
  simp only [BitVec.and_allOnes, byte_and_FE_eq_zero_iff, byteField_toNat_eq_wordK,
    valueField_eq_zero_iff, windowField_eq_zero_iff, opField_eq_iff]
  change _ ∧ _ ∧ _ ∧ wordOP w = 3 ↔ _
  tauto

/-- The mask of ADVANCE keeps `K` and the opcode. -/
theorem and_mask_of_advance_eq_iff (w : CommandWord) :
    w &&& 0x00000000FF0F#48 = 0x000000000004#48 ↔ wordOP w = 4 ∧ wordK w = 0 := by
  have hmask : 0x00000000FF0F#48 = packWord 0#32 (BitVec.allOnes 8) 0#4 (BitVec.allOnes 4) := rfl
  have hmatch : 0x000000000004#48 = packWord 0#32 0#8 0#4 4#4 := rfl
  rw [hmask, hmatch, and_packWord_eq_iff]
  simp only [BitVec.and_allOnes, BitVec.and_zero, true_and, byteField_eq_zero_iff, opField_eq_iff]
  exact and_comm

/-- Settles O6: a mask and its match say of the fields what the decoder asks of them. -/
theorem opcodeTableSelectsWords : Obligations.OpcodeTableSelectsWords := by
  unfold Obligations.OpcodeTableSelectsWords
  simp only [decode_ok_iff, FieldsAre, exists_and_left, exists_eq', and_true]
  exact fun w => ⟨and_mask_of_byte_eq_iff w 1#4, and_mask_of_byte_eq_iff w 2#4,
    and_mask_of_enable_eq_iff w, and_mask_of_advance_eq_iff w⟩

end Sys2Proof.Machine
end

section
/-!
PROOF. What any command does, in one form: it drives ports, sets the scan position and answers, and all of
that is a function of its operands, the configuration and the scan position (00_scope.md R6, R17;
10_state.md R30).
-/

namespace Sys2Proof.Machine

/-! ### How a state is put together -/

/-- A state is its configuration, scan position, ports, queue and record. -/
theorem State.eq_of_ports {s t : State} (hcfg : s.cfg = t.cfg) (hpos : s.pos = t.pos)
    (hports : s.ports = t.ports) (hpending : s.pending = t.pending) (hlog : s.log = t.log) : s = t := by
  cases s
  cases t
  simp_all [State.ports]

/-! ### What a command does -/

/-- The effect of one command: the scan position it leaves and what the observer sees of it. -/
structure Effect where
  pos : Position
  status : Status
  pattern : Option Byte
  events : List Event

/-- The record of a command with this effect. -/
def Effect.record (e : Effect) : Record := .command ⟨e.status, e.pattern⟩ e.events

/-- The effect of a command that ends in an error: none on the state (60_exceptions.md R162). -/
def Effect.error (pos : Position) (status : Status) : Effect := ⟨pos, status, none, []⟩

/-- The effect of a command, from its operands, the configuration and the scan position. -/
def effectOf (cfg : Config) (pos : Position) : Instr → Effect
  | .encode sym =>
    if h : sym < cfg.rom.size then ⟨pos, .ok, some (romRead cfg.rom sym h), []⟩
    else .error pos .invalidSymbol
  | .select p =>
    if selectionInRange cfg p then ⟨pos, .ok, none, [.addrWrite (BitVec.ofNat 3 p)]⟩
    else .error pos .invalidSelection
  | .enable a =>
    match cfg.enableLine with
    | .absent => .error pos .illegalCommand
    | .present => ⟨pos, .ok, none, [.enWrite (enLevel cfg.enPolarity a)]⟩
  | .advance v w =>
    if !windowInRange cfg w then .error pos .invalidWindow
    else if !valueInRange cfg v then .error pos .invalidValue
    else ⟨BitVec.ofNat 3 (nextPosition cfg.maxPos pos.toNat w), .ok, none, tickEvents cfg pos v⟩

/-- The state after an effect. -/
def State.undergo (s : State) (e : Effect) : State :=
  (s.withPos e.pos).finish e.status e.pattern e.events

@[simp] theorem State.undergo_cfg (s : State) (e : Effect) : (s.undergo e).cfg = s.cfg :=
  State.finish_cfg ..
@[simp] theorem State.undergo_pos (s : State) (e : Effect) : (s.undergo e).pos = e.pos :=
  State.finish_pos ..
@[simp] theorem State.undergo_pending (s : State) (e : Effect) : (s.undergo e).pending = s.pending :=
  State.finish_pending ..
@[simp] theorem State.undergo_log (s : State) (e : Effect) : (s.undergo e).log = s.log ++ [e.record] := rfl
@[simp] theorem State.undergo_ports (s : State) (e : Effect) :
    (s.undergo e).ports = s.ports.after e.record :=
  State.finish_ports ..

theorem State.undergo_error (s : State) (st : Status) : s.undergo (.error s.pos st) = s.fail st := rfl

/-- Every command has its effect, wherever the configuration is one of this hardware. -/
theorem exec_eq_guarded (i : Instr) (s : State) :
    exec i s = guarded s (.next (s.undergo (effectOf s.cfg s.pos i))) := by
  cases i with
  | encode sym =>
    simp only [exec, execEncode, effectOf]
    split <;> rfl
  | select p =>
    simp only [exec, execSelect, effectOf]
    split <;> rfl
  | enable a =>
    cases he : s.cfg.enableLine <;> simp only [exec, execEnable, effectOf, he] <;> rfl
  | advance v w =>
    simp only [exec, execAdvance, effectOf]
    split
    · rfl
    · split <;> rfl

theorem exec_of_legal {s : State} (hl : s.Legal) (i : Instr) :
    exec i s = .next (s.undergo (effectOf s.cfg s.pos i)) := by
  rw [exec_eq_guarded, guarded_of_legal hl]

/-- All that a command can do when it answers a next state. -/
theorem exec_next {i : Instr} {s t : State} (h : exec i s = .next t) :
    s.Legal ∧ t = s.undergo (effectOf s.cfg s.pos i) := by
  rw [exec_eq_guarded] at h
  obtain ⟨hl, h⟩ := guarded_next h
  exact ⟨hl, by simpa using h.symm⟩

/-- The effect of a command is that of an error, or its status is OK and its record has one of the shapes
the rules give. -/
theorem effectOf_cases (cfg : Config) (pos : Position) (i : Instr) :
    (∃ st, st ≠ .ok ∧ effectOf cfg pos i = .error pos st) ∨
      ((effectOf cfg pos i).status = .ok ∧ RecordShape cfg (effectOf cfg pos i).record) := by
  cases i with
  | encode sym =>
    simp only [effectOf]
    split
    · exact .inr ⟨rfl, .inl ⟨sym, _, rfl, rfl⟩⟩
    · exact .inl ⟨_, by decide, rfl⟩
  | select p =>
    simp only [effectOf]
    split
    · exact .inr ⟨rfl, .inr ⟨rfl, .inl ⟨_, rfl⟩⟩⟩
    · exact .inl ⟨_, by decide, rfl⟩
  | enable a =>
    cases he : cfg.enableLine
    · simp only [effectOf, he]
      exact .inr ⟨trivial, .inr ⟨rfl, .inr (.inl ⟨he, a, rfl⟩)⟩⟩
    · simp only [effectOf, he]
      exact .inl ⟨_, by decide, rfl⟩
  | advance v w =>
    simp only [effectOf]
    split
    · exact .inl ⟨_, by decide, rfl⟩
    · split
      · exact .inl ⟨_, by decide, rfl⟩
      · exact .inr ⟨rfl, .inr ⟨rfl, .inr (.inr ⟨pos, _, digitAt_lt_ten v _, rfl⟩)⟩⟩

/-- The record of an error has its shape. -/
theorem recordShape_error (cfg : Config) (pos : Position) {st : Status} (h : st ≠ .ok) :
    RecordShape cfg (Effect.error pos st).record := by
  simp [RecordShape, Effect.record, Effect.error, h]

theorem recordShape_effectOf (cfg : Config) (pos : Position) (i : Instr) :
    RecordShape cfg (effectOf cfg pos i).record := by
  obtain ⟨st, hst, he⟩ | ⟨-, h⟩ := effectOf_cases cfg pos i
  · exact he ▸ recordShape_error cfg pos hst
  · exact h

/-- Where the scan moves, the command is a tick and makes a tick's port writes. -/
theorem effectOf_pos (cfg : Config) (pos : Position) (i : Instr) :
    (effectOf cfg pos i).pos = pos ∨ ∃ v, (effectOf cfg pos i).events = tickEvents cfg pos v := by
  cases i with
  | encode sym => simp only [effectOf]; split <;> exact .inl rfl
  | select p => simp only [effectOf]; split <;> exact .inl rfl
  | enable a => cases he : cfg.enableLine <;> simp [effectOf, he, Effect.error]
  | advance v w =>
    simp only [effectOf]
    split
    · exact .inl rfl
    · split
      · exact .inl rfl
      · exact .inr ⟨v, rfl⟩

end Sys2Proof.Machine
end

section
/-!
PROOF. Steps and commands whatever the command is: the queue, the reset input, illegal words, errors,
frames, completion (00_scope.md R6, R7; 60_exceptions.md R160 to R170).
-/

namespace Sys2Proof.Machine

/-! ### Steps -/

/-- Settles O11: the queue's front is the request performed, and a legal word performs its command. -/
theorem stepRunsDecodedCommand : Obligations.StepRunsDecodedCommand :=
  fun _ _ _ _ hp hd => step_of_decode_ok hp hd

/-- Settles O13: the reset input is performed as `State.assertReset`. -/
theorem resetInputClears : Obligations.ResetInputClears := by
  intro s rest hl hp
  have hstep : step s = performReset { s with pending := rest } := by
    simp [step, nextRequest, perform, hp]
  rw [hstep, performReset, guarded_of_legal (s := { s with pending := rest }) hl]
  rfl

/-- Settles O14: with an empty queue the step is `idle`. -/
theorem nothingPresentedNothingHappens : Obligations.NothingPresentedNothingHappens := by
  intro s hl hp
  have hstep : step s = idle s := by simp [step, nextRequest, hp]
  rw [hstep, idle, guarded_of_legal hl]

/-- Settles O15: the fields of `State.powerOn`, and the configuration of `State.reset`. -/
theorem resetValues : Obligations.ResetValues :=
  ⟨fun _ => ⟨rfl, rfl, rfl, rfl, rfl⟩, rfl⟩

/-- Settles O12: each illegal shape is the else branch of its opcode's reading, so the word does not
decode. -/
theorem illegalWordChangesNothing : Obligations.IllegalWordChangesNothing := by
  intro s w rest hl hp hbad
  obtain ⟨-, -, -, -, hillegal⟩ := decodeFollowsFields w
  obtain ⟨e, he⟩ := hillegal (by omega) (by omega) (by omega)
  exact step_of_decode_error hl hp he

/-! ### Commands -/

/-- Settles O30: what every command leaves alone comes from the form of its effect, the rest command by
command. -/
theorem commandFrames : Obligations.CommandFrames := by
  intro s t i h
  obtain ⟨-, ht⟩ := exec_next h
  refine ⟨exec_cfg h, by simp [ht], ⟨_, _, by rw [ht, State.undergo_log]; rfl⟩, ?_⟩
  cases i with
  | encode sym =>
    obtain ⟨-, ⟨_, rfl⟩ | ⟨-, rfl⟩⟩ := execEncode_next h <;> simp
  | select p =>
    obtain ⟨-, ⟨_, rfl⟩ | ⟨-, rfl⟩⟩ := execSelect_next h
    · exact ⟨s.finish_pos .., rfl, rfl⟩
    · simp
  | enable a =>
    obtain ⟨-, ⟨_, rfl⟩ | ⟨-, rfl⟩⟩ := execEnable_next h
    · simp
    · exact ⟨s.finish_pos .., rfl, rfl⟩
  | advance v w => exact exec_advance_en h

/-- Under another record and another queue a command has the same effect. -/
theorem State.undergo_withLog (s : State) (log : List Record) (pending : List Request) (e : Effect) :
    State.undergo { s with log := log, pending := pending } e =
      { s.undergo e with log := log ++ [e.record], pending := pending } :=
  State.eq_of_ports (by simp) (by simp) ((State.undergo_ports ..).trans (State.undergo_ports s e).symm)
    (by simp) (by simp)

/-- Settles O35: the effect of a command is a function of the configuration and the scan position. -/
theorem recordAndQueueNotRead : Obligations.RecordAndQueueNotRead := by
  intro s t i log pending h
  obtain ⟨hl, rfl⟩ := exec_next h
  exact ⟨_, _, s.undergo_log _, (exec_of_legal (s := { s with log := log, pending := pending }) hl i).trans
    (congrArg _ (s.undergo_withLog log pending _))⟩

/-- A step with a command word in front is some command's effect or that of an error. -/
theorem step_command_next {s t : State} {w : CommandWord} {rest : List Request}
    (hp : s.pending = .command w :: rest) (h : step s = .next t) :
    (∃ i, t = State.undergo { s with pending := rest } (effectOf s.cfg s.pos i)) ∨
      t = State.undergo { s with pending := rest } (.error s.pos .illegalCommand) := by
  rw [step_of_command hp] at h
  cases hd : decode w with
  | ok i =>
    rw [performCommand_of_ok hd] at h
    exact .inl ⟨i, (exec_next h).2⟩
  | error e =>
    rw [performCommand_of_error hd] at h
    exact .inr (execIllegal_next h).2

/-- An error leaves the state as it was, but for the record. -/
theorem State.undergo_error_eq (s : State) (st : Status) :
    s.undergo (.error s.pos st) = { s with log := s.log ++ [.command ⟨st, none⟩ []] } :=
  s.fail_eq st

/-- Settles O34: a status other than OK is the effect of an error. -/
theorem errorsChangeNothing : Obligations.ErrorsChangeNothing := by
  intro s t w rest hp h
  obtain ⟨i, rfl⟩ | rfl := step_command_next hp h
  · refine ⟨_, _, _, State.undergo_log .., fun hst => ?_⟩
    obtain ⟨st, -, he⟩ | ⟨hok, -⟩ := effectOf_cases s.cfg s.pos i
    · rw [he]
      exact ⟨rfl, rfl, State.undergo_error_eq ..⟩
    · exact absurd hok hst
  · exact ⟨_, _, _, State.undergo_log .., fun _ => ⟨rfl, rfl, State.undergo_error_eq ..⟩⟩

/-- Every step is checked against the configuration, and completes where the check passes. -/
theorem step_eq_guarded (s : State) : ∃ t, step s = guarded s (.next t) := by
  match hp : s.pending with
  | [] => exact ⟨s, by simp [step, nextRequest, hp, idle]⟩
  | .reset :: rest => exact ⟨_, by simp only [step, nextRequest, hp, perform, performReset]; rfl⟩
  | .command w :: rest =>
    rw [step_of_command hp]
    cases hd : decode w with
    | ok i => exact ⟨_, by rw [performCommand_of_ok hd, exec_eq_guarded]; rfl⟩
    | error e => exact ⟨_, by rw [performCommand_of_error hd, execIllegal]; rfl⟩

/-- Settles O38: commands and steps alike are the check of the configuration before a next state. -/
theorem everyRequestCompletes : Obligations.EveryRequestCompletes := by
  intro s
  obtain ⟨t, ht⟩ := step_eq_guarded s
  refine ⟨fun hl => ⟨⟨t, by rw [ht, guarded_of_legal hl]⟩, fun i => ⟨_, exec_of_legal hl i⟩⟩, fun hl => ?_⟩
  obtain ⟨d, hd⟩ := Option.ne_none_iff_exists'.mp hl
  exact ⟨d, hd, by rw [ht, guarded_of_defect hd], fun i => by rw [exec_eq_guarded, guarded_of_defect hd]⟩

/-! ### The queue -/

/-- The queue can be emptied before an effect or after it. -/
theorem State.undergo_emptyQueue (s : State) (pending : List Request) (e : Effect) :
    State.undergo { s with pending := [] } e =
      { State.undergo { s with pending := pending } e with pending := [] } :=
  State.undergo_withLog { s with pending := pending } s.log [] e

theorem core_run_succ {M : Host.Core} {s t : M.State} (h : M.step s = .next t) (k : Nat) :
    M.run (k + 1) s = M.run k t := by
  simp [Host.Core.run, h]

theorem core_run_succ_of_refused {M : Host.Core} {s : M.State} {r : M.Refusal}
    (h : M.step s = .refused r) (k : Nat) : M.run (k + 1) s = .refused r := by
  simp [Host.Core.run, h]

theorem runCommands_cons {i : Instr} {s t : State} (h : exec i s = .next t) (is : List Instr) :
    runCommands (i :: is) s = runCommands is t := by
  rw [runCommands, h]

theorem runCommands_cons_of_refused {i : Instr} {s : State} {r : Refusal} (h : exec i s = .refused r)
    (is : List Instr) : runCommands (i :: is) s = .refused r := by
  rw [runCommands, h]

/-- The check of a command does not read the queue. -/
theorem exec_withPending (i : Instr) (s : State) (pending : List Request) :
    exec i { s with pending := pending } =
      guarded s (.next (State.undergo { s with pending := pending } (effectOf s.cfg s.pos i))) :=
  exec_eq_guarded i { s with pending := pending }

/-- Settles O16, by induction on the queue: each step runs the command its word encodes and leaves the
rest of the queue. -/
theorem queuedWordsRunInOrder : Obligations.QueuedWordsRunInOrder := by
  intro s is hwf hp
  induction is generalizing s with
  | nil =>
    have hs : s = { s with pending := [] } := State.eq_of_ports rfl rfl rfl hp rfl
    exact congrArg _ hs
  | cons i is ih =>
    obtain ⟨hi, his⟩ := List.forall_mem_cons.mp hwf
    rw [List.length_cons]
    have hstep := (step_of_decode_ok hp (decodeOfEncode i hi)).trans (exec_withPending ..)
    have hcmd := exec_withPending i s []
    cases hd : configDefect s.cfg with
    | none =>
      rw [guarded_of_legal hd] at hstep hcmd
      rw [core_run_succ (M := Sys2Proof.core) hstep, runCommands_cons hcmd,
        ih _ his (State.undergo_pending ..), State.undergo_emptyQueue s]
    | some d =>
      rw [guarded_of_defect hd] at hstep hcmd
      exact (core_run_succ_of_refused (M := Sys2Proof.core) hstep _).trans
        (runCommands_cons_of_refused hcmd is).symm

end Sys2Proof.Machine
end

section
/-!
PROOF. What every reachable state satisfies: the latches are what the record says, the bus carries the
blank between commands, and the address lines move under it (43_scan_controller.md R131, R134).
-/

namespace Sys2Proof.Machine

/-! ### What a record of a given shape does to the ports -/

/-- A level of the segment bus that lights nothing: unknown, or the blank. -/
def BlankOrUnknown (cfg : Config) (seg : Option Byte) : Prop :=
  seg = none ∨ seg = some (applyPolarity cfg.polarity blankPattern)

/-- The event lists a command of the rules' shapes can have. -/
theorem RecordShape.events_cases {cfg : Config} {response : Response} {events : List Event}
    (h : RecordShape cfg (.command response events)) :
    events = [] ∨ (∃ p, events = [.addrWrite p]) ∨
      (cfg.enableLine = .present ∧ ∃ l, events = [.enWrite l]) ∨
      ∃ p b, events = [.addrWrite p, .segWrite b, .segWrite (applyPolarity cfg.polarity blankPattern)] := by
  by_cases hst : response.status = .ok
  · simp only [RecordShape, hst, if_true] at h
    obtain ⟨_, _, -, he⟩ | ⟨-, ⟨p, he⟩ | ⟨hline, a, he⟩ | ⟨p, d, hd, he⟩⟩ := h
    · exact .inl he
    · exact .inr (.inl ⟨p, he⟩)
    · exact .inr (.inr (.inl ⟨hline, _, he⟩))
    · exact .inr (.inr (.inr ⟨p, _, he⟩))
  · simp only [RecordShape, hst, if_false] at h
    exact .inl h.2

/-- A request leaves the bus as it was, unknown or blank (43_scan_controller.md R134). -/
theorem RecordShape.after_seg {cfg : Config} {r : Record} (h : RecordShape cfg r) {ports : Ports}
    (hseg : BlankOrUnknown cfg ports.seg) : BlankOrUnknown cfg (ports.after r).seg := by
  cases r with
  | reset => exact .inl rfl
  | command response events =>
    obtain rfl | ⟨_, rfl⟩ | ⟨-, _, rfl⟩ | ⟨_, _, rfl⟩ := h.events_cases
    · exact hseg
    · exact hseg
    · exact hseg
    · exact .inr rfl

/-- With no enable line no request makes its level known. -/
theorem RecordShape.after_en {cfg : Config} {r : Record} (h : RecordShape cfg r)
    (hline : cfg.enableLine = .absent) {ports : Ports} (hen : ports.en = none) :
    (ports.after r).en = none := by
  cases r with
  | reset => rfl
  | command response events =>
    obtain rfl | ⟨_, rfl⟩ | ⟨hpresent, _, rfl⟩ | ⟨_, _, rfl⟩ := h.events_cases
    · exact hen
    · exact hen
    · cases hline.symm.trans hpresent
    · exact hen

/-- Before it drives the address lines a command has driven nothing (43_scan_controller.md R131). -/
theorem RecordShape.nil_before_addrWrite {cfg : Config} {r : Record} {p : Position}
    {before after : List Event} (h : RecordShape cfg r)
    (hevents : r.events = before ++ .addrWrite p :: after) : before = [] := by
  cases r with
  | reset => cases before <;> cases hevents
  | command response events =>
    change events = _ at hevents
    obtain rfl | ⟨_, rfl⟩ | ⟨-, _, rfl⟩ | ⟨_, _, rfl⟩ := h.events_cases
    · simp at hevents
    · obtain ⟨h, -⟩ | ⟨_, -, h⟩ := List.cons_eq_append_iff.mp hevents
      · exact h
      · simp at h
    · simp [List.cons_eq_append_iff] at hevents
    · obtain ⟨h, -⟩ | ⟨_, -, h⟩ := List.cons_eq_append_iff.mp hevents
      · exact h
      · simp [List.cons_eq_append_iff] at h

/-! ### The invariant -/

/-- After reset nothing has been driven and nothing seen. -/
theorem inv_powerOn (cfg : Config) (hcfg : configDefect cfg = none) : Inv (State.powerOn cfg) where
  legal := hcfg
  latches_recorded := rfl
  bus_blank := .inl rfl
  scan_at_start := fun _ => rfl
  no_line_no_level := fun _ => rfl
  shapes := fun _ hr => absurd hr List.not_mem_nil

/-- Settles O56: `State.reset` is one of the states after reset, its configuration being legal. -/
theorem invHoldsAtReset : Obligations.InvHoldsAtReset :=
  ⟨inv_powerOn defaultConfig (by decide), inv_powerOn⟩

/-- The state one record later satisfies the invariant, where the ports are what the record makes of them
and the scan stays at its start until something is shown. -/
theorem Inv.extend {s t : State} (hi : Inv s) (r : Record) (hcfg : t.cfg = s.cfg)
    (hports : t.ports = s.ports.after r) (hlog : t.log = s.log ++ [r]) (hr : RecordShape s.cfg r)
    (hscan : t.seg = none → t.pos = 0) : Inv t where
  legal := (congrArg configDefect hcfg).trans hi.legal
  latches_recorded := by rw [hports, hlog, portsOf_append, hi.latches_recorded]
  bus_blank := by
    have hseg : t.seg = (s.ports.after r).seg := congrArg Ports.seg hports
    rw [hcfg, hseg]
    exact hr.after_seg (ports := s.ports) hi.bus_blank
  scan_at_start := hscan
  no_line_no_level := by
    intro hline
    have hen : t.en = (s.ports.after r).en := congrArg Ports.en hports
    rw [hcfg] at hline
    exact hen.trans (hr.after_en hline (hi.no_line_no_level hline))
  shapes := by
    rw [hcfg, hlog]
    exact List.forall_mem_append.mpr ⟨hi.shapes, List.forall_mem_singleton.mpr hr⟩

/-- The queue is no part of the invariant. -/
theorem Inv.withPending {s : State} (hi : Inv s) (pending : List Request) :
    Inv { s with pending := pending } :=
  ⟨hi.legal, hi.latches_recorded, hi.bus_blank, hi.scan_at_start, hi.no_line_no_level, hi.shapes⟩

theorem Inv.assertReset {s : State} (hi : Inv s) : Inv s.assertReset :=
  hi.extend .reset rfl rfl rfl trivial fun _ => rfl

theorem Inv.fail {s : State} (hi : Inv s) {st : Status} (hst : st ≠ .ok) : Inv (s.fail st) :=
  hi.extend _ (s.fail_cfg st) rfl rfl (recordShape_error s.cfg s.pos hst) hi.scan_at_start

/-- Within a command a bus level that is known stays known. -/
theorem Ports.seg_eq_none_of_foldl_see {events : List Event} {ports : Ports}
    (h : (events.foldl Ports.see ports).seg = none) : ports.seg = none := by
  induction events generalizing ports with
  | nil => exact h
  | cons e es ih =>
    have hsee := ih h
    cases e with
    | segWrite b => cases hsee
    | addrWrite p => exact hsee
    | enWrite l => exact hsee

/-- A command moves the scan only where it shows a digit, which makes the bus known. -/
theorem exec_keeps_inv {i : Instr} {s t : State} (hi : Inv s) (h : exec i s = .next t) : Inv t := by
  obtain ⟨hl, rfl⟩ := exec_next h
  refine hi.extend _ (State.undergo_cfg ..) (State.undergo_ports ..) (State.undergo_log ..)
    (recordShape_effectOf ..) fun hseg => ?_
  have hbus : ((effectOf s.cfg s.pos i).events.foldl Ports.see s.ports).seg = none :=
    (congrArg Ports.seg (State.undergo_ports ..)).symm.trans hseg
  obtain hpos | ⟨v, hv⟩ := effectOf_pos s.cfg s.pos i
  · rw [State.undergo_pos, hpos]
    exact hi.scan_at_start (Ports.seg_eq_none_of_foldl_see hbus)
  · rw [hv] at hbus
    cases hbus

/-- Settles O57: a step is a reset, the effect of a command, that of an error, or nothing. -/
theorem stepKeepsInv : Obligations.StepKeepsInv := by
  intro s t hi h
  obtain ⟨-, -, rfl⟩ | ⟨rest, -, -, rfl⟩ | ⟨_, rest, _, -, -, hexec⟩ | ⟨_, rest, _, -, -, -, rfl⟩ :=
    step_next h
  · exact hi
  · exact (hi.withPending rest).assertReset
  · exact exec_keeps_inv (hi.withPending rest) hexec
  · exact (hi.withPending rest).fail (by decide)

/-! ### The record -/

/-- Over requests of these shapes the bus is unknown or blank between them. -/
theorem portsOf_seg_blank {cfg : Config} {log : List Record} (h : ∀ r ∈ log, RecordShape cfg r) :
    BlankOrUnknown cfg (portsOf log).seg := by
  induction log using List.reverseRecOn with
  | nil => exact .inl rfl
  | append_singleton log r ih =>
    obtain ⟨hlog, hr⟩ := List.forall_mem_append.mp h
    rw [portsOf_append]
    exact (List.forall_mem_singleton.mp hr).after_seg (ih hlog)

/-- Settles O58: the address lines are driven first in their command, so the bus is as it was between
commands. -/
theorem addressMovesUnderBlank : Obligations.AddressMovesUnderBlank := by
  intro s hi earlier later r before after p hlog
  have hshapes := hi.shapes
  rw [hlog, List.forall_mem_append, List.forall_mem_cons] at hshapes
  obtain ⟨hearlier, hr, -⟩ := hshapes
  rw [hr.nil_before_addrWrite rfl]
  exact portsOf_seg_blank hearlier

/-- An event of the record stands in one of its requests. -/
theorem observedEvents_eq_append_cons {log : List Record} {before after : List Event} {e : Event}
    (h : observedEvents log = before ++ e :: after) :
    ∃ earlier r later first rest, log = earlier ++ r :: later ∧ r.events = first ++ e :: rest ∧
      before = observedEvents earlier ++ first := by
  induction log generalizing before with
  | nil => simp at h
  | cons r log ih =>
    have hcons : r.events ++ observedEvents log = before ++ e :: after := h
    have hlater : ∀ rest, before = r.events ++ rest → observedEvents log = rest ++ e :: after →
        ∃ earlier r' later first rest, r :: log = earlier ++ r' :: later ∧
          r'.events = first ++ e :: rest ∧ before = observedEvents earlier ++ first := by
      intro rest hbefore hlog
      obtain ⟨earlier, r', later, first, rest', rfl, hr', rfl⟩ := ih hlog
      exact ⟨r :: earlier, r', later, first, rest', rfl, hr', by simp [hbefore, observedEvents]⟩
    obtain ⟨rest, hbefore, hlog⟩ | ⟨rest, hr, hrest⟩ := List.append_eq_append_iff.mp hcons
    · exact hlater rest hbefore hlog
    · obtain ⟨rfl, hlog⟩ | ⟨rest', rfl, -⟩ := List.cons_eq_append_iff.mp hrest
      · exact hlater [] (by rw [hr]; simp) hlog
      · exact ⟨[], r, log, before, rest', rfl, hr, rfl⟩

/-- The last SegWrite event is the level of the bus, were there no resets. -/
theorem lastSegWrite_eq_seg (events : List Event) :
    lastSegWrite events = (events.foldl Ports.see Ports.unknown).seg := by
  unfold lastSegWrite
  refine List.foldl_hom (init := Ports.unknown) Ports.seg fun ports e => ?_
  cases e <;> rfl

/-- Resets aside, the bus carries the blank between commands once it has carried anything. -/
theorem foldl_see_observedEvents_blank {cfg : Config} {log : List Record}
    (h : ∀ r ∈ log, RecordShape cfg r) :
    BlankOrUnknown cfg ((observedEvents log).foldl Ports.see Ports.unknown).seg := by
  induction log using List.reverseRecOn with
  | nil => exact .inl rfl
  | append_singleton log r ih =>
    obtain ⟨hlog, hr⟩ := List.forall_mem_append.mp h
    rw [observedEvents_append, observedEvents_singleton, List.foldl_append]
    cases r with
    | reset => exact ih hlog
    | command response events => exact (List.forall_mem_singleton.mp hr).after_seg (ih hlog)

/-- Settles O59: the AddrWrite event is the first of its command, so the last SegWrite event before it is
an earlier command's last. -/
theorem lastSegWriteBeforeAddrWriteIsBlank : Obligations.LastSegWriteBeforeAddrWriteIsBlank := by
  intro s hi before after p h
  obtain ⟨earlier, r, later, first, rest, hlog, hr, rfl⟩ := observedEvents_eq_append_cons h
  have hshapes := hi.shapes
  rw [hlog, List.forall_mem_append, List.forall_mem_cons] at hshapes
  obtain ⟨hearlier, hshape, -⟩ := hshapes
  rw [hshape.nil_before_addrWrite hr, List.append_nil, lastSegWrite_eq_seg]
  exact foldl_see_observedEvents_blank hearlier

/-- An event changes only the port it writes. -/
theorem Ports.holds_see {ports : Ports} {e' e : Event} (h : (ports.see e').Holds e) :
    e = e' ∨ ports.Holds e := by
  cases e' <;> cases e <;> simp_all [Ports.see, eq_comm]

/-- A level a list of events leaves on a port was driven by one of them or was there before. -/
theorem Ports.holds_foldl_see {events : List Event} {ports : Ports} {e : Event}
    (h : (events.foldl Ports.see ports).Holds e) : e ∈ events ∨ ports.Holds e := by
  induction events generalizing ports with
  | nil => exact .inr h
  | cons e' es ih =>
    obtain hmem | hsee := ih h
    · exact .inl (List.mem_cons_of_mem _ hmem)
    · obtain rfl | hports := Ports.holds_see hsee
      · exact .inl List.mem_cons_self
      · exact .inr hports

/-- A level the record says of a port was driven in the part of it since the last reset. -/
theorem portsOf_holds {log : List Record} {e : Event} (h : (portsOf log).Holds e) :
    ∃ earlier later, log = earlier ++ later ∧ .reset ∉ later ∧ e ∈ observedEvents later := by
  induction log using List.reverseRecOn with
  | nil => cases e <;> cases h
  | append_singleton log r ih =>
    rw [portsOf_append] at h
    cases r with
    | reset => cases e <;> cases h
    | command response events =>
      obtain hmem | hbefore := Ports.holds_foldl_see h
      · exact ⟨log, [.command response events], rfl, by simp, by simpa [Record.events] using hmem⟩
      · obtain ⟨earlier, later, rfl, hreset, hmem⟩ := ih hbefore
        exact ⟨earlier, later ++ [.command response events], List.append_assoc .., by simpa using hreset,
          by simp [hmem]⟩

/-- Settles O60: the latches are what the record says. -/
theorem knownLevelWasDriven : Obligations.KnownLevelWasDriven :=
  fun _ hi _ he => portsOf_holds (hi.latches_recorded ▸ he)

end Sys2Proof.Machine
end

section
/-!
PROOF. The four commands one by one (41_digit_encoder.md R85, 42_position_decoder.md R102 to R106,
43_scan_controller.md R124, R125).
-/

namespace Sys2Proof.Machine

/-! ### ENCODE -/

theorem exec_encode_of_symbol {s : State} {sym : Nat} (hl : s.Legal) (h : sym < s.cfg.rom.size) :
    exec (.encode sym) s = .next (s.saw .ok (some (romRead s.cfg.rom sym h)) []) :=
  execEncode_of_symbol hl h

theorem exec_encode_of_no_symbol {s : State} {sym : Nat} (hl : s.Legal) (h : s.cfg.rom.size ≤ sym) :
    exec (.encode sym) s = .next (s.saw .invalidSymbol none []) :=
  execEncode_of_no_symbol hl h

/-- ENCODE in the rich set answers the table's entry. -/
theorem exec_encode_of_rich {s : State} {table : Vector Byte 18} {sym : Nat} (hl : s.Legal)
    (hr : s.cfg.rom = .digitsHexBlankDot table) (h : sym < 18) :
    exec (.encode sym) s = .next (s.saw .ok (some table[sym]) []) := by
  have hsize : sym < s.cfg.rom.size := by rwa [hr]
  rw [exec_encode_of_symbol hl hsize, romRead_of_rich hr hsize h]

/-- ENCODE in the digit-only set answers the table's entry. -/
theorem exec_encode_of_digits {s : State} {table : Vector Byte 10} {sym : Nat} (hl : s.Legal)
    (hr : s.cfg.rom = .digitsOnly table) (h : sym < 10) :
    exec (.encode sym) s = .next (s.saw .ok (some table[sym]) []) := by
  have hsize : sym < s.cfg.rom.size := by rwa [hr]
  rw [exec_encode_of_symbol hl hsize, romRead_of_digits hr hsize h]

/-- Settles O17, by the size of the ROM and by its symbol set. -/
theorem encodeReturnsRomEntry : Obligations.EncodeReturnsRomEntry :=
  fun _ _ hl => ⟨exec_encode_of_symbol hl, fun _ => exec_encode_of_rich hl,
    fun _ => exec_encode_of_digits hl, exec_encode_of_no_symbol hl⟩

/-- Settles O18: the legal blank entry is 0x00, and the sizes of the two symbol sets are 18 and 10. -/
theorem encodeCornerSymbols : Obligations.EncodeCornerSymbols := by
  refine fun s hl => ⟨fun hset => ?_, fun sym hsym hset => exec_encode_of_no_symbol hl ?_,
    fun sym hsym => exec_encode_of_no_symbol hl ?_⟩
  · cases hr : s.cfg.rom with
    | digitsOnly table => simp [hr, SegmentRom.symbolSet] at hset
    | digitsHexBlankDot table =>
      rw [exec_encode_of_rich hl hr (by decide), blank_entry_of_legal hl hr]
  · cases hr : s.cfg.rom with
    | digitsOnly table => exact hsym
    | digitsHexBlankDot table => simp [hr, SegmentRom.symbolSet] at hset
  · cases hr : s.cfg.rom with
    | digitsOnly table => exact Nat.le_trans (show 10 ≤ 18 by decide) hsym
    | digitsHexBlankDot table => exact hsym

/-- Settles O19: the symbol is in the ROM or past its end, and so it is in any state with that ROM. -/
theorem encodeReadsOnlyTheRom : Obligations.EncodeReadsOnlyTheRom := by
  intro s s' sym hl hl' hrom
  by_cases h : sym < s.cfg.rom.size
  · refine ⟨⟨.ok, some (romRead s.cfg.rom sym h)⟩, exec_encode_of_symbol hl h, ?_⟩
    have h' : sym < s'.cfg.rom.size := hrom ▸ h
    rw [exec_encode_of_symbol hl' h']
    simp only [hrom]
  · have h' : s'.cfg.rom.size ≤ sym := hrom ▸ Nat.le_of_not_lt h
    exact ⟨⟨.invalidSymbol, none⟩, exec_encode_of_no_symbol hl (Nat.le_of_not_lt h),
      exec_encode_of_no_symbol hl' h'⟩

/-! ### SELECT -/

/-- Settles O20: a position of three bits is in range, and cutting it to three bits does nothing. -/
theorem selectDrivesAddress : Obligations.SelectDrivesAddress := by
  intro s p hl
  have h := exec_select_of_position hl (Nat.le_of_lt_succ p.isLt)
  rwa [BitVec.ofNat_toNat, BitVec.setWidth_eq] at h

/-- Settles O24: the second SELECT drives what the first one drove. -/
theorem selectIsIdempotent : Obligations.SelectIsIdempotent := by
  intro s p hl
  refine ⟨_, _, selectDrivesAddress s p hl, selectDrivesAddress _ p hl, rfl, rfl, ?_⟩
  simp [State.saw, observedEvents, Record.events]

/-! ### ENABLE -/

theorem enLevel_eq (pol : Polarity) (a : Bool) :
    enLevel pol a = if pol = .activeHigh then (if a then 1 else 0) else if a then 0 else 1 := by
  cases pol <;> cases a <;> rfl

/-- Settles O25: the level the pin is driven to is `enLevel`'s. -/
theorem enableDrivesPin : Obligations.EnableDrivesPin := by
  refine fun s a hl => ⟨fun hline l hlevel => ?_, exec_enable_of_absent hl⟩
  rw [hlevel, ← enLevel_eq]
  exact exec_enable_of_present hl hline

/-- Settles O47, for each polarity and request. -/
theorem enableLevelReadsBack : Obligations.EnableLevelReadsBack := by
  intro pol a
  cases pol <;> cases a <;> rfl

/-! ### The decoder's output -/

/-- With a position selected and the decoder known to be live or not, the output is that position's bit or
nothing (42_position_decoder.md R109). -/
theorem decoderOutput_of_live {s : State} {p : Position} {b : Bool} (hp : s.addr = some p)
    (hlive : s.live = some b) : s.decoderOutput = some (if b then 1#8 <<< p.toNat else 0) := by
  cases b <;> simp [State.decoderOutput, hp, hlive]

theorem decoderOutput_of_no_addr {s : State} (hp : s.addr = none) : s.decoderOutput = none := by
  simp [State.decoderOutput, hp]

theorem decoderOutput_of_no_live {s : State} (hlive : s.live = none) : s.decoderOutput = none := by
  cases hp : s.addr <;> simp [State.decoderOutput, hp, hlive]

theorem live_of_absent {s : State} (hline : s.cfg.enableLine = .absent) : s.live = some true := by
  simp [State.live, hline]

theorem live_of_present {s : State} {en : Option Level} (hline : s.cfg.enableLine = .present)
    (hen : s.en = en) : s.live = en.map (enActive s.cfg.enPolarity) := by
  simp [State.live, hline, hen]

/-- Bit `i` of the output is position `i`'s. -/
theorem getLsbD_output (b : Bool) (p : Position) {i : Nat} (hi : i < 8) :
    (if b then 1#8 <<< p.toNat else 0).getLsbD i = (b && decide (i = p.toNat)) := by
  have hbit : ∀ (p : Position) (i : Fin 8), (1#8 <<< p.toNat).getLsbD i = decide (i = p.toNat) := by
    decide
  cases b with
  | false => simp
  | true => exact hbit p ⟨i, hi⟩

/-- Settles O48: the output's bits where the latches are known, and no output where one is not. -/
theorem decoderOutputFollowsLatches : Obligations.DecoderOutputFollowsLatches := by
  refine fun s => ⟨decoderOutput_of_no_addr, fun hline hen => ?_, fun p hp hline => ?_,
    fun p l hp hline hen => ?_⟩
  · exact decoderOutput_of_no_live (live_of_present hline hen)
  · exact ⟨_, decoderOutput_of_live hp (live_of_absent hline), fun i hi => getLsbD_output true p hi⟩
  · exact ⟨_, decoderOutput_of_live hp (live_of_present hline hen),
      fun i hi => getLsbD_output _ p hi⟩

/-- Settles O27: the level driven reads back as the request, and the selection stands. -/
theorem enableGatesOutput : Obligations.EnableGatesOutput := by
  intro s p a hl hline hp
  exact ⟨_, exec_enable_of_present hl hline, hp, decoderOutput_of_live hp
    (Eq.trans (live_of_present hline rfl) (congrArg some (enableLevelReadsBack s.cfg.enPolarity a)))⟩

/-! ### ADVANCE -/

theorem exec_advance_of_valid {v w : Nat} {s : State} (hl : s.Legal) (hw : 1 ≤ w ∧ w ≤ 8)
    (hv : v < 2 ^ s.cfg.valueWidth.bits) : exec (.advance v w) s = .next (ticked v w s) :=
  execAdvance_of_valid hl hw hv

theorem exec_advance_of_no_window {v w : Nat} {s : State} (hl : s.Legal) (hw : ¬ (1 ≤ w ∧ w ≤ 8)) :
    exec (.advance v w) s = .next (s.saw .invalidWindow none []) := by
  simp [exec, execAdvance, guarded_of_legal hl, windowInRange_of_legal hl, hw, State.fail_eq_saw]

theorem exec_advance_of_no_value {v w : Nat} {s : State} (hl : s.Legal) (hw : 1 ≤ w ∧ w ≤ 8)
    (hv : 2 ^ s.cfg.valueWidth.bits ≤ v) :
    exec (.advance v w) s = .next (s.saw .invalidValue none []) := by
  simp [exec, execAdvance, guarded_of_legal hl, windowInRange_of_legal hl, hw, valueInRange_eq,
    Nat.not_lt.mpr hv, State.fail_eq_saw]

/-- Settles O29, in the order of the two checks. -/
theorem advanceRejectsOperands : Obligations.AdvanceRejectsOperands :=
  fun _ _ _ hl => ⟨fun hw => exec_advance_of_no_window hl (by omega),
    fun hw1 hw8 => exec_advance_of_no_value hl ⟨hw1, hw8⟩⟩

/-- What a tick does, field by field (43_scan_controller.md R125, R126). -/
theorem ticked_eq {v w : Nat} {s : State} (hl : s.Legal) :
    ticked v w s =
      { s.saw .ok none
          [.addrWrite s.pos, .segWrite (digitByte s.cfg v (7 - s.pos.toNat)),
            .segWrite (applyPolarity s.cfg.polarity 0x00)] with
        addr := some s.pos
        seg := some (applyPolarity s.cfg.polarity 0x00)
        pos := BitVec.ofNat 3 (if s.pos.toNat + 1 ≤ 7 then s.pos.toNat + 1 else 8 - w) } := by
  have hevents : tickEvents s.cfg s.pos v = [.addrWrite s.pos,
      .segWrite (digitByte s.cfg v (7 - s.pos.toNat)), .segWrite (applyPolarity s.cfg.polarity 0x00)] := by
    rw [tickEvents, placeOf_of_legal hl]
    rfl
  rw [ticked, hevents, nextPosition, maxPos_of_legal hl]
  rfl

/-- The byte of a digit is the transform of the ROM's entry for it. -/
theorem digitByte_eq (cfg : Config) (v k : Nat) {d : Nat} (hd : v / 10 ^ k % 10 = d) (h : d < cfg.rom.size) :
    digitByte cfg v k = applyPolarity cfg.polarity (romRead cfg.rom d h) := by
  subst hd
  rfl

/-- Settles O28: the tick of the model field by field, and the ROM entry it shows. -/
theorem advanceMakesOneTick : Obligations.AdvanceMakesOneTick := by
  refine fun s v w hl hw1 hw8 hv => ⟨?_, fun table hr k d h hd => ?_, fun table hr k d h hd => ?_⟩
  · rw [exec_advance_of_valid hl ⟨hw1, hw8⟩ hv, ticked_eq hl]
  · have hsize : d < s.cfg.rom.size := by rwa [hr]
    rw [digitByte_eq s.cfg v k hd hsize, romRead_of_rich hr hsize h]
  · have hsize : d < s.cfg.rom.size := by rwa [hr]
    rw [digitByte_eq s.cfg v k hd hsize, romRead_of_digits hr hsize h]

/-- Settles O55: a tick overwrites the address latch, which is all the SELECT changed. -/
theorem selectBetweenTicksIsHarmless : Obligations.SelectBetweenTicksIsHarmless := by
  intro s p v w hl hw1 hw8 hv
  refine ⟨_, _, _, _, selectDrivesAddress s p hl, rfl, rfl, rfl, rfl,
    exec_advance_of_valid hl ⟨hw1, hw8⟩ hv, ticked_log v w s,
    Eq.trans (exec_advance_of_valid hl ⟨hw1, hw8⟩ hv) (congrArg _ ?_)⟩
  exact State.eq_of_ports rfl rfl rfl rfl (List.append_assoc ..)

end Sys2Proof.Machine
end

section
/-!
PROOF. Runs of ticks (43_scan_controller.md R126 to R133): the climb below the wrap, whatever the windows,
and the cycle of the window.
-/

namespace Sys2Proof.Machine

/-! ### A run of ticks -/

/-- The ADVANCE commands of these values and windows. -/
abbrev advances (cmds : List (Nat × Nat)) : List Instr := cmds.map fun c => .advance c.1 c.2

/-- Values of the configured width with windows 1..8 (43_scan_controller.md R124). -/
abbrev TicksFit (cfg : Config) (cmds : List (Nat × Nat)) : Prop :=
  ∀ c ∈ cmds, c.1 < 2 ^ cfg.valueWidth.bits ∧ 1 ≤ c.2 ∧ c.2 ≤ 8

/-- The state after a run of ticks that all complete. -/
def tickAll : List (Nat × Nat) → State → State
  | [], s => s
  | c :: cmds, s => tickAll cmds (ticked c.1 c.2 s)

/-- A run of ticks in range completes. -/
theorem runCommands_advances {cmds : List (Nat × Nat)} {s : State} (hl : s.Legal)
    (hfit : TicksFit s.cfg cmds) : runCommands (advances cmds) s = .next (tickAll cmds s) := by
  induction cmds generalizing s with
  | nil => rfl
  | cons c cmds ih =>
    obtain ⟨⟨hv, hw⟩, hcmds⟩ := List.forall_mem_cons.mp hfit
    have htick : exec (.advance c.1 c.2) s = .next (ticked c.1 c.2 s) := execAdvance_of_valid hl hw hv
    exact (runCommands_cons htick (advances cmds)).trans (ih (s := ticked c.1 c.2 s) hl hcmds)

theorem tickAll_append (cmds cmds' : List (Nat × Nat)) (s : State) :
    tickAll (cmds ++ cmds') s = tickAll cmds' (tickAll cmds s) := by
  induction cmds generalizing s with
  | nil => rfl
  | cons c cmds ih => exact ih _

theorem tickAll_cfg (cmds : List (Nat × Nat)) (s : State) : (tickAll cmds s).cfg = s.cfg := by
  induction cmds generalizing s with
  | nil => rfl
  | cons c cmds ih => exact (ih _).trans (ticked_cfg ..)

/-- A tick grants the bus to the position it drives (43_scan_controller.md R133). -/
theorem grants_ticked (v w : Nat) (s : State) :
    grants (ticked v w s).log = grants s.log ++ [s.pos.toNat] := by
  rw [ticked_log, grants_append]
  rfl

/-! ### Below the wrap -/

/-- Below the wrap the scan climbs one position a tick, whatever the windows. -/
theorem tickAll_climb {cmds : List (Nat × Nat)} {s : State} (hl : s.Legal) (hfit : TicksFit s.cfg cmds)
    (htop : s.pos.toNat + cmds.length ≤ 7) :
    (tickAll cmds s).pos.toNat = s.pos.toNat + cmds.length ∧
      grants (tickAll cmds s).log = grants s.log ++ List.range' s.pos.toNat cmds.length := by
  induction cmds generalizing s with
  | nil => simp [tickAll]
  | cons c cmds ih =>
    rw [List.length_cons] at htop
    obtain ⟨⟨hv, hw⟩, hcmds⟩ := List.forall_mem_cons.mp hfit
    have hpos : (ticked c.1 c.2 s).pos.toNat = s.pos.toNat + 1 :=
      (ticked_pos hl hw).trans (if_neg (by omega))
    obtain ⟨hend, hgrants⟩ := ih (s := ticked c.1 c.2 s) hl hcmds (by omega)
    refine ⟨?_, ?_⟩
    · rw [tickAll, hend, hpos, List.length_cons, Nat.add_right_comm, Nat.add_assoc]
    · rw [tickAll, hgrants, hpos, grants_ticked, List.append_assoc, List.length_cons, List.range'_succ,
        List.singleton_append]

/-- Settles O51: seven ticks climb from position 0 to 7, and the eighth wraps by its own window. -/
theorem startupSweep : Obligations.StartupSweep := by
  intro s cmds hl hfit
  refine ⟨fun htop => ⟨_, runCommands_advances hl hfit, tickAll_climb hl hfit htop⟩,
    fun v w hpos hlen hv hw1 hw8 => ⟨tickAll (cmds ++ [(v, w)]) s, ?_, ?_⟩⟩
  · have hall : TicksFit s.cfg (cmds ++ [(v, w)]) :=
      List.forall_mem_append.mpr ⟨hfit, List.forall_mem_singleton.mpr ⟨hv, hw1, hw8⟩⟩
    rw [← runCommands_advances hl hall, advances, List.map_append]
    rfl
  · have hzero : s.pos.toNat = 0 := congrArg BitVec.toNat hpos
    obtain ⟨hend, hgrants⟩ := tickAll_climb hl hfit (by omega)
    rw [hzero, hlen] at hend hgrants
    rw [tickAll_append]
    have hlegal : (tickAll cmds s).Legal := (congrArg configDefect (tickAll_cfg cmds s)).trans hl
    refine ⟨(ticked_pos hlegal ⟨hw1, hw8⟩).trans (if_pos hend), ?_⟩
    rw [tickAll, tickAll, grants_ticked, hgrants, hend, List.append_assoc]
    rfl

/-! ### In the window -/

/-- Ticks of a held window are ADVANCE commands. -/
theorem ticks_eq_advances (w : Nat) (values : List Nat) :
    ticks w values = advances (values.map (·, w)) := by
  simp [ticks]

/-- The position `j` places round the cycle of window `w` from position `p`. -/
def cyclePos (w p j : Nat) : Nat := wrapFloor w + (p - wrapFloor w + j) % w

theorem wrapFloor_add {w : Nat} (hw : 1 ≤ w ∧ w ≤ 8) : wrapFloor w + w = 8 := by
  unfold wrapFloor
  omega

theorem cyclePos_zero {w p : Nat} (hw : 1 ≤ w ∧ w ≤ 8) (hp : wrapFloor w ≤ p ∧ p ≤ 7) :
    cyclePos w p 0 = p := by
  have hfloor := wrapFloor_add hw
  rw [cyclePos, Nat.add_zero, Nat.mod_eq_of_lt (by omega)]
  omega

/-- Going round one place and then `j` is going `j + 1`. -/
theorem cyclePos_cyclePos (w p i j : Nat) : cyclePos w (cyclePos w p i) j = cyclePos w p (i + j) := by
  rw [cyclePos, cyclePos, Nat.add_sub_cancel_left, Nat.mod_add_mod, Nat.add_assoc, cyclePos]

/-- In the window a tick goes one place round the cycle. -/
theorem ticked_pos_inWindow {v w : Nat} {s : State} (hl : s.Legal) (hw : 1 ≤ w ∧ w ≤ 8)
    (hin : s.InWindow w) : (ticked v w s).pos.toNat = cyclePos w s.pos.toNat 1 := by
  have hp := s.pos.isLt
  have hfloor := wrapFloor_add hw
  rw [ticked_pos hl hw, cyclePos]
  split_ifs with htop
  · have hround : s.pos.toNat - wrapFloor w + 1 = w := by omega
    rw [hround, Nat.mod_self]
    rfl
  · rw [Nat.mod_eq_of_lt (by omega)]
    omega

theorem pos_cyclePos {w : Nat} {s : State} (hw : 1 ≤ w ∧ w ≤ 8) (hin : s.InWindow w) :
    cyclePos w s.pos.toNat 0 = s.pos.toNat :=
  cyclePos_zero hw ⟨hin, Nat.le_of_lt_succ s.pos.isLt⟩

theorem inWindow_ticked {v w : Nat} {s : State} (hl : s.Legal) (hw : 1 ≤ w ∧ w ≤ 8) (hin : s.InWindow w) :
    (ticked v w s).InWindow w := by
  rw [State.InWindow, ticked_pos_inWindow hl hw hin]
  exact Nat.le_add_right ..

/-- In the window a run of ticks goes round the cycle, granting each position it stands at. -/
theorem tickAll_inWindow {w : Nat} {s : State} (values : List Nat) (hl : s.Legal) (hw : 1 ≤ w ∧ w ≤ 8)
    (hin : s.InWindow w) :
    (tickAll (values.map (·, w)) s).pos.toNat = cyclePos w s.pos.toNat values.length ∧
      grants (tickAll (values.map (·, w)) s).log =
        grants s.log ++ (List.range values.length).map (cyclePos w s.pos.toNat) := by
  induction values generalizing s with
  | nil => simp [tickAll, pos_cyclePos hw hin]
  | cons v values ih =>
    have hpos := ticked_pos_inWindow (v := v) hl hw hin
    obtain ⟨hend, hgrants⟩ := ih (s := ticked v w s) hl (inWindow_ticked hl hw hin)
    rw [hpos] at hend hgrants
    refine ⟨?_, ?_⟩
    · rw [List.map_cons, tickAll, hend, cyclePos_cyclePos, List.length_cons, Nat.add_comm]
    · rw [List.map_cons, tickAll, hgrants, grants_ticked, List.length_cons, List.range_succ_eq_map]
      simp [cyclePos_cyclePos, pos_cyclePos hw hin, Function.comp_def, Nat.add_comm]

/-- A run of ticks of a held window completes. -/
theorem runCommands_ticks {w : Nat} {values : List Nat} {s : State} (hl : s.Legal) (hw : 1 ≤ w ∧ w ≤ 8)
    (hv : ValuesFit s.cfg values) :
    runCommands (ticks w values) s = .next (tickAll (values.map (·, w)) s) := by
  rw [ticks_eq_advances]
  exact runCommands_advances hl (List.forall_mem_map.mpr fun v hmem => ⟨hv v hmem, hw⟩)

/-- Settles O49: the position after `n` ticks is `n` places round the cycle, and the cycle lies in the
window. -/
theorem steadyWindow : Obligations.SteadyWindow := by
  intro s w values hl hw1 hw8 hv hin
  obtain ⟨hpos, -⟩ := tickAll_inWindow values hl ⟨hw1, hw8⟩ hin
  refine ⟨_, runCommands_ticks hl ⟨hw1, hw8⟩ hv, ?_, hpos⟩
  rw [State.InWindow, hpos]
  exact Nat.le_add_right ..

/-- Round the cycle, the start comes again after the multiples of `w`. -/
theorem cyclePos_eq_self_iff {w p n : Nat} (hw : 1 ≤ w ∧ w ≤ 8) (hp : wrapFloor w ≤ p ∧ p ≤ 7) :
    cyclePos w p n = p ↔ w ∣ n := by
  have hfloor := wrapFloor_add hw
  have hlt : p - wrapFloor w < w := by omega
  rw [← Nat.add_modEq_left_iff (a := p - wrapFloor w), Nat.ModEq, Nat.mod_eq_of_lt hlt, cyclePos]
  omega

theorem dvd_eight_iff {w : Nat} (hw : 1 ≤ w ∧ w ≤ 8) : w ∣ 8 ↔ w = 1 ∨ w = 2 ∨ w = 4 ∨ w = 8 := by
  obtain ⟨h1, h8⟩ := hw
  interval_cases w <;> decide

/-- Settles O53: the scan is back at its start when the number of ticks is a multiple of the window. -/
theorem cycleClosure : Obligations.CycleClosure := by
  intro s w values hl hw1 hw8 hv hin
  have hp := s.pos.isLt
  obtain ⟨hpos, -⟩ := tickAll_inWindow values hl ⟨hw1, hw8⟩ hin
  have hclosed : (tickAll (values.map (·, w)) s).pos = s.pos ↔ w ∣ values.length := by
    rw [← BitVec.toNat_inj, hpos]
    exact cyclePos_eq_self_iff ⟨hw1, hw8⟩ ⟨hin, by omega⟩
  exact ⟨_, runCommands_ticks hl ⟨hw1, hw8⟩ hv, hclosed,
    fun hlen => hclosed.trans (hlen ▸ dvd_eight_iff ⟨hw1, hw8⟩)⟩

/-- One whole cycle is the window's positions, from the start on. -/
theorem map_cyclePos_perm {w : Nat} (p : Nat) :
    ((List.range w).map (cyclePos w p)).Perm (List.range' (wrapFloor w) w) := by
  have hrotate : (List.range w).map (cyclePos w p) =
      (List.range' (wrapFloor w) w).rotate (p - wrapFloor w) := by
    refine List.ext_getElem (by simp) fun j hj _ => ?_
    simp [List.getElem_rotate, cyclePos, Nat.add_comm]
  exact hrotate ▸ List.rotate_perm _ _

/-- Two places in a row are different, unless the cycle has one place. -/
theorem cyclePos_succ_ne {w : Nat} (hw : 1 < w) (p j : Nat) : cyclePos w p j ≠ cyclePos w p (j + 1) := by
  intro h
  have hmod : p - wrapFloor w + j ≡ p - wrapFloor w + j + 1 [MOD w] := Nat.add_left_cancel h
  have hdvd : w ∣ 1 := Nat.add_modEq_left_iff.mp hmod.symm
  exact Nat.ne_of_gt hw (Nat.dvd_one.mp hdvd)

/-- Settles O54: the grants are the cycle's places in their order. -/
theorem windowIsServedFairly : Obligations.WindowIsServedFairly := by
  intro s w values hl hw1 hw8 hv hin
  obtain ⟨-, hgrants⟩ := tickAll_inWindow values hl ⟨hw1, hw8⟩ hin
  refine ⟨_, _, runCommands_ticks hl ⟨hw1, hw8⟩ hv, hgrants, rfl, ?_, fun hne => ?_⟩
  · rintro rfl
    exact map_cyclePos_perm _
  · rw [List.isChain_map, List.isChain_range]
    exact fun j _ => cyclePos_succ_ne (by omega) _ j

/-- Below the wrap the next position does not depend on the window. -/
theorem ticked_of_below_wrap {s : State} (hl : s.Legal) (v w w' : Nat) (hpos : s.pos ≠ 7) :
    ticked v w s = ticked v w' s := by
  have hlt : s.pos.toNat ≠ 7 := fun h => hpos (BitVec.eq_of_toNat_eq h)
  have hp := s.pos.isLt
  rw [ticked_eq hl, ticked_eq hl, if_pos (by omega), if_pos (by omega)]

/-- Settles O52: where the value fits both windows tick, alike below the wrap, and where it does not both
are answered INVALID_VALUE. -/
theorem windowCountsOnlyAtWrap : Obligations.WindowCountsOnlyAtWrap := by
  intro s v w w' hl hw1 hw8 hw1' hw8'
  refine ⟨fun hpos => ?_, fun hpos hv => ⟨_, exec_advance_of_valid hl ⟨hw1, hw8⟩ hv, ?_⟩⟩
  · by_cases hv : v < 2 ^ s.cfg.valueWidth.bits
    · rw [exec_advance_of_valid hl ⟨hw1, hw8⟩ hv, exec_advance_of_valid hl ⟨hw1', hw8'⟩ hv,
        ticked_of_below_wrap hl v w w' hpos]
    · rw [exec_advance_of_no_value hl ⟨hw1, hw8⟩ (Nat.le_of_not_lt hv),
        exec_advance_of_no_value hl ⟨hw1', hw8'⟩ (Nat.le_of_not_lt hv)]
  · exact (ticked_pos hl ⟨hw1, hw8⟩).trans (if_pos (congrArg BitVec.toNat hpos))

/-! ### What a held value shows -/

/-- In the window a held value shows, at each position of the cycle, the digit of that position's place. -/
theorem shown_tickAll_replicate {v w : Nat} {s : State} (n : Nat) (hl : s.Legal) (hw : 1 ≤ w ∧ w ≤ 8)
    (hin : s.InWindow w) :
    shown (tickAll ((List.replicate n v).map (·, w)) s).log =
      shown s.log ++ (List.range n).map fun j =>
        (BitVec.ofNat 3 (cyclePos w s.pos.toNat j), digitByte s.cfg v (7 - cyclePos w s.pos.toNat j)) := by
  induction n generalizing s with
  | zero => simp [tickAll]
  | succ n ih =>
    rw [List.replicate_succ, List.map_cons, tickAll, ih (s := ticked v w s) hl (inWindow_ticked hl hw hin),
      ticked_pos_inWindow hl hw hin, shown_ticked hl, List.range_succ_eq_map]
    simp [cyclePos_cyclePos, pos_cyclePos hw hin, Function.comp_def, Nat.add_comm]

/-- From the floor the first cycle goes up one by one. -/
theorem cyclePos_floor {w j : Nat} (hj : j < w) : cyclePos w (wrapFloor w) j = wrapFloor w + j := by
  rw [cyclePos, Nat.sub_self, Nat.zero_add, Nat.mod_eq_of_lt hj]

/-- Settles O50: the cycle from the floor goes through places `w - 1` to 0. -/
theorem windowShowsLowDigits : Obligations.WindowShowsLowDigits := by
  intro s v w hl hw1 hw8 hv hfloor
  have hin : s.InWindow w := Nat.le_of_eq hfloor.symm
  have hfit : ValuesFit s.cfg (List.replicate w v) := fun x hx => List.eq_of_mem_replicate hx ▸ hv
  obtain ⟨t, ht, hclosed, -⟩ := cycleClosure s w (List.replicate w v) hl hw1 hw8 hfit hin
  refine ⟨t, ht, hclosed.mpr (by rw [List.length_replicate]), ?_⟩
  cases (runCommands_ticks hl ⟨hw1, hw8⟩ hfit).symm.trans ht
  rw [shown_tickAll_replicate w hl ⟨hw1, hw8⟩ hin, hfloor]
  refine congrArg _ (List.map_congr_left fun j hj => ?_)
  have hjw := List.mem_range.mp hj
  have hsum := wrapFloor_add ⟨hw1, hw8⟩
  have hplace : 7 - (wrapFloor w + j) = w - 1 - j := by omega
  rw [cyclePos_floor hjw, hplace]

end Sys2Proof.Machine
end

section
/-!
PROOF. Serialised words and text (20_memory.md R43, 30_encoding.md R67 to R69).
-/

namespace Sys2Proof.Machine

/-! ### A serialised word -/

/-- A word is its six bytes, highest first. -/
theorem bytes_append (w : CommandWord) :
    w.extractLsb' 40 8 ++ w.extractLsb' 32 8 ++ w.extractLsb' 24 8 ++ w.extractLsb' 16 8 ++
      w.extractLsb' 8 8 ++ w.extractLsb' 0 8 = w := by
  apply BitVec.eq_of_toNat_eq
  have hw := w.isLt
  simp only [toNat_append_eq_add, BitVec.extractLsb'_toNat, Nat.shiftRight_eq_div_pow]
  omega

theorem wordOfBytes_bytesOfWord (order : ByteOrder) (w : CommandWord) :
    wordOfBytes order (bytesOfWord order w) = some w := by
  cases order <;> exact congrArg some (bytes_append w)

theorem length_of_wordOfBytes {order : ByteOrder} {bs : List Byte} {w : CommandWord}
    (h : wordOfBytes order bs = some w) : bs.length = 6 := by
  unfold wordOfBytes at h
  split at h
  · rfl
  · cases h

/-- Settles O7: the six bytes put together again are the word, and no other number of bytes is one. -/
theorem serialisedWordDecodes : Obligations.SerialisedWordDecodes := by
  refine fun order => ⟨fun w => ⟨wordOfBytes_bytesOfWord order w, ?_⟩, fun bs hlen => ?_⟩
  · rw [decodeBytes, wordOfBytes_bytesOfWord]
  · cases hw : wordOfBytes order bs with
    | none => rw [decodeBytes, hw]
    | some w => exact absurd (length_of_wordOfBytes hw) hlen

/-! ### Text -/

theorem wellFormed_of_fitting {i j : Instr} (h : fitting i = .ok j) : j.wellFormed = true := by
  unfold fitting at h
  split at h
  · cases h
    assumption
  · cases h

/-- A command of one operand is made from the number read. -/
theorem oneOperand_ok {read : List Char → Option Nat} {make : Nat → Except AsmError Instr}
    {operands : List Token} {i : Instr} (h : oneOperand read make operands = .ok i) :
    ∃ n, make n = .ok i := by
  unfold oneOperand at h
  split at h
  · split at h
    · exact ⟨_, h⟩
    · cases h
  · cases h

theorem wellFormed_of_enableOf {n : Nat} {i : Instr} (h : enableOf n = .ok i) : i.wellFormed = true := by
  unfold enableOf at h
  split at h
  · cases h
    rfl
  · cases h

theorem wellFormed_of_advanceOperands {operands : List Token} {i : Instr}
    (h : advanceOperands operands = .ok i) : i.wellFormed = true := by
  unfold advanceOperands at h
  split at h
  · split at h
    · exact wellFormed_of_fitting h
    · cases h
  · cases h

/-- Whatever the mnemonic, the operands have been checked. -/
theorem wellFormed_of_assembleTokens {mnemonic : List Char} {operands : List Token} {i : Instr}
    (h : assembleTokens mnemonic operands = .ok i) : i.wellFormed = true := by
  unfold assembleTokens at h
  dsimp only at h
  split_ifs at h
  · exact (oneOperand_ok h).elim fun _ => wellFormed_of_fitting
  · exact (oneOperand_ok h).elim fun _ => wellFormed_of_fitting
  · exact (oneOperand_ok h).elim fun _ => wellFormed_of_enableOf
  · exact wellFormed_of_advanceOperands h
  · cases h
    rfl

/-- Settles O8: a line's command is one its tokens assemble to. -/
theorem assembledCommandFits : Obligations.AssembledCommandFits := by
  intro line i h
  unfold assembleLine at h
  split at h
  · cases h
  · cases h
  · split at h
    case h_1 htokens =>
      cases h
      exact wellFormed_of_assembleTokens htokens
    case h_2 => cases h

/-- Settles O9: the assembler run on the five texts. -/
theorem workedEncodingsAssemble : Obligations.WorkedEncodingsAssemble :=
  ⟨rfl, rfl, rfl, rfl, rfl⟩

/-- Settles O10: DISABLE is by definition the command ENABLE 0. -/
theorem disableIsEnableZero : Obligations.DisableIsEnableZero :=
  ⟨rfl, rfl, fun _ => rfl⟩

end Sys2Proof.Machine
end

section
/-!
PROOF. Statuses, legal configurations, the decimal digits and what a tick reads of them
(60_exceptions.md R160, R170; 43_scan_controller.md R121 to R135; 44_polarity.md R153).
-/

namespace Sys2Proof.Machine

/-! ### Statuses and configurations -/

/-- The status of a code, read back. -/
def statusOfCode (code : BitVec 3) : Status :=
  if code = 0 then .ok
  else if code = 1 then .invalidSelection
  else if code = 2 then .invalidSymbol
  else if code = 3 then .invalidWindow
  else if code = 4 then .invalidValue
  else .illegalCommand

theorem statusOfCode_statusCode (st : Status) : statusOfCode (statusCode st) = st := by
  cases st <;> rfl

/-- Settles O36: the codes one by one; they differ because each reads back as its status. -/
theorem statusCodes : Obligations.StatusCodes := by
  refine ⟨rfl, rfl, rfl, rfl, rfl, rfl, fun st => ?_,
    fun _ _ h => Function.LeftInverse.injective statusOfCode_statusCode h⟩
  cases st <;> decide

/-- A chain of checks finds no defect where the first check passes and the rest find none. -/
theorem ite_some_eq_none_iff {p : Prop} [Decidable p] {d : ConfigDefect} {rest : Option ConfigDefect} :
    (if p then some d else rest) = none ↔ ¬ p ∧ rest = none := by
  split_ifs with hp <;> simp [hp]

theorem ne_absent_iff (presence : Presence) : presence ≠ .absent ↔ presence = .present := by
  cases presence <;> decide

/-- Settles O37, check by check; the last one reads the blank entry of the rich set. -/
theorem legalConfigurations : Obligations.LegalConfigurations := by
  intro s
  cases hr : s.cfg.rom with
  | digitsOnly table =>
    simp only [State.Legal, configDefect, hr, ite_some_eq_none_iff, not_not, ← ne_eq, ne_absent_iff]
    simp
  | digitsHexBlankDot table =>
    simp only [State.Legal, configDefect, hr, ite_some_eq_none_iff, not_not, ← ne_eq, ne_absent_iff]
    simp

/-! ### Digits -/

/-- Settles O39: a place past the value's digits divides it to 0. -/
theorem zeroPadding : Obligations.ZeroPadding := by
  refine fun v k => ⟨digitAt_lt_ten v k, fun hv => ?_⟩
  rw [digitAt, pow10, Nat.div_eq_of_lt hv]

/-- The digits below place `n` are the value modulo `10 ^ n`. -/
theorem sum_digitAt (v n : Nat) :
    ((List.range n).map fun k => digitAt v k * 10 ^ k).sum = v % 10 ^ n := by
  induction n with
  | zero => simp [Nat.mod_one]
  | succ n ih =>
    rw [List.range_succ, List.map_append, List.sum_append, ih, Nat.mod_pow_succ]
    simp [digitAt, pow10, Nat.mul_comm]

/-- Settles O40: the eight lowest digits. -/
theorem digitsRebuildValue : Obligations.DigitsRebuildValue := fun v => sum_digitAt v 8

/-- The digits below place `n` are those of the value modulo `10 ^ n`. -/
theorem digit_mod_pow (v : Nat) {k n : Nat} (hk : k < n) : v % 10 ^ n / 10 ^ k % 10 = v / 10 ^ k % 10 := by
  have hsplit : 10 ^ n = 10 ^ k * 10 ^ (n - k) := by rw [← Nat.pow_add, Nat.add_sub_cancel' hk.le]
  rw [hsplit, Nat.mod_mul_right_div_self]
  exact Nat.mod_mod_of_dvd _ (dvd_pow_self 10 (Nat.sub_ne_zero_of_lt hk))

theorem digitByte_mod_pow (cfg : Config) (v : Nat) {k n : Nat} (hk : k < n) :
    digitByte cfg (v % 10 ^ n) k = digitByte cfg v k := by
  have hsize : v / 10 ^ k % 10 < cfg.rom.size := (Nat.mod_lt _ (by decide)).trans_le cfg.rom.ten_le_size
  rw [digitByte_eq cfg v k rfl hsize, digitByte_eq cfg _ k (digit_mod_pow v hk) hsize]

/-- Settles O42: the remainder is in range where the value is, and has the same eight digits. -/
theorem onlyLowEightDigitsMatter : Obligations.OnlyLowEightDigitsMatter := by
  intro s v w hv
  have hrest : v % 10 ^ 8 < 2 ^ s.cfg.valueWidth.bits := (Nat.mod_le _ _).trans_lt hv
  cases hd : configDefect s.cfg with
  | some d => rw [exec_eq_guarded, exec_eq_guarded, guarded_of_defect hd, guarded_of_defect hd]
  | none =>
    by_cases hw : 1 ≤ w ∧ w ≤ 8
    · rw [exec_advance_of_valid hd hw hv, exec_advance_of_valid hd hw hrest, ticked_eq hd, ticked_eq hd,
        digitByte_mod_pow s.cfg v (by omega)]
    · rw [exec_advance_of_no_window hd hw, exec_advance_of_no_window hd hw]

/-- Settles O43: the digit of a place past the value's digits is 0, and its ROM entry is shown. -/
theorem leadingZerosAreShown : Obligations.LeadingZerosAreShown := by
  intro s v w hl hw1 hw8 hv hlead
  have hzero : v / 10 ^ (7 - s.pos.toNat) % 10 = 0 := by rw [Nat.div_eq_of_lt hlead]
  obtain ⟨t, ht, hshown, -⟩ := positionShowsPlace s v w hl hw1 hw8 hv
  refine ⟨t, ht, ?_⟩
  rw [hshown, digitByte_eq s.cfg v _ hzero ((Nat.zero_lt_succ 9).trans_le s.cfg.rom.ten_le_size)]
  rfl

/-! ### What a tick reads of the ROM -/

/-- The state with its ROM replaced. -/
abbrev State.withRom (s : State) (rom : SegmentRom) : State := { s with cfg := { s.cfg with rom := rom } }

/-- Two ROMs that agree on the digits give a tick the same effect. -/
theorem effectOf_advance_withRom {cfg : Config} {rom : SegmentRom}
    (hrom : ∀ d (h : d < 10), digitPattern rom d h = digitPattern cfg.rom d h) (pos : Position) (v w : Nat) :
    effectOf { cfg with rom := rom } pos (.advance v w) = effectOf cfg pos (.advance v w) := by
  have hevents : tickEvents { cfg with rom := rom } pos v = tickEvents cfg pos v := by
    simp only [tickEvents, digitPinByte, hrom]
    rfl
  simp only [effectOf, hevents]
  rfl

/-- Settles O44: the effect of the tick is the same under either ROM. -/
theorem tickReadsOnlyDigitEntries : Obligations.TickReadsOnlyDigitEntries := by
  intro s t rom v w hrom hl' h
  obtain ⟨-, rfl⟩ := exec_next h
  refine Eq.trans (exec_of_legal (s := s.withRom rom) hl' _) (congrArg _ ?_)
  rw [effectOf_advance_withRom hrom]
  exact State.eq_of_ports (State.undergo_cfg ..) (by simp)
    ((State.undergo_ports ..).trans (State.undergo_ports s _).symm) (by simp) (by simp)

/-! ### Polarity -/

theorem applyPolarity_involutive (pol : Polarity) : Function.Involutive (applyPolarity pol) := by
  intro p
  cases pol with
  | activeHigh => rfl
  | activeLow => exact BitVec.not_not

/-- Settles O46: an involution is a bijection; the bytes are evaluated. -/
theorem segmentTransformProperties : Obligations.SegmentTransformProperties :=
  ⟨applyPolarity_involutive, fun pol => (applyPolarity_involutive pol).bijective, rfl, rfl, rfl, rfl⟩

end Sys2Proof.Machine
end
